-- ==== Sys2Proof/Word.lean ====
section
/-! DEFINITION. The bit-vector types of the engine and the two instantiation widths (00_scope.md R5, R6). -/

namespace Sys2Proof

/-- One buffer byte (00_scope.md R6). -/
abbrev Byte := BitVec 8

/-- A "small integer": shift count, OR value, divisor, remainder, digit, register R (00_scope.md R5, SMALL). -/
abbrev Small := BitVec 5

/-- The 6-bit buffer position of a format P command (30_encoding.md R49). -/
abbrev Position := BitVec 6

/-- One 16-bit command word (30_encoding.md R45). -/
abbrev CommandWord := BitVec 16

/-- The instantiation width W that a command's bit w selects (30_encoding.md R46, R51). -/
inductive Width where
  | w128   -- w = 0: accumulator A128
  | w256   -- w = 1: accumulator A256
deriving DecidableEq, Repr

/-- W in bits. -/
abbrev Width.bits : Width → Nat
  | .w128 => 128
  | .w256 => 256

/-- W/8, the length of a stored W-bit integer (20_memory.md R37). -/
abbrev Width.bytes : Width → Nat
  | .w128 => 16
  | .w256 => 32

end Sys2Proof
end

