-- ==== Sys2Proof/Syntax.lean ====
section
/-! DEFINITION. The 17 commands of CORE-CMD version 1, one constructor per row of the opcode map (30_encoding.md R52). -/

namespace Sys2Proof

/-- A command with its operands as 30_encoding.md R51 assembles them. -/
inductive Instr where
  | zero (w : Width)               -- ZERO.W    R61
  | ldbe (w : Width)               -- LDBE.W    R62
  | stbe (w : Width)               -- STBE.W    R63
  | shl (w : Width) (n : Small)    -- SHL.W n   R64
  | shr (w : Width) (n : Small)    -- SHR.W n   R65
  | orli (w : Width) (x : Small)   -- ORLI.W x  R66
  | orlr (w : Width)               -- ORLR.W    R67
  | low5 (w : Width)               -- LOW5.W    R68
  | isz (w : Width)                -- ISZ.W     R69
  | divs (w : Width) (d : Small)   -- DIVS.W d  R70
  | dec (w : Width)                -- DEC.W     R80
  | b32e (p : Position)            -- B32E p    R88
  | b32d (p : Position)            -- B32D p    R89
  | accenc                         -- ACCENC    R90
  | accdec                         -- ACCDEC    R92
  | baldec                         -- BALDEC    R100
  | balenc                         -- BALENC    R101
deriving DecidableEq, Repr

end Sys2Proof
end

