-- ==== Sys2Proof/WellFormed.lean ====
section
/-! DEFINITION. Which command terms a word can encode (30_encoding.md R53). The operand types already bound every
field; the one constraint left is that a divisor is not 0. -/

namespace Sys2Proof

/-- DIVS with d = 0 is an illegal encoding (30_encoding.md R53 (f)); every other term has a word. -/
def Instr.wf (i : Instr) : Bool :=
  match i with
  | .divs _ d => d != 0#5
  | .zero _ | .ldbe _ | .stbe _ | .shl _ _ | .shr _ _ | .orli _ _ | .orlr _ | .low5 _ | .isz _ | .dec _
  | .b32e _ | .b32d _ | .accenc | .accdec | .baldec | .balenc => true

end Sys2Proof
end

