-- ==== Sys2Proof/Decode.lean ====
section
/-! DEFINITION. The decoder of the 16-bit command word, total on all 65536 words and refusing by name
(30_encoding.md R45 to R53), and after it the encoder written from the same formats. -/

namespace Sys2Proof

/-- Why a word is illegal, by the clauses of 30_encoding.md R53. -/
inductive DecodeError where
  | unassignedOpcode   -- (a)
  | reservedBits       -- (b) bits [9:6]
  | immediateBit5      -- (c) format I, bit 5
  | operandNotZero     -- (d) format N or M, bits [5:0]
  | widthBitSet        -- (e) format P or M, bit 10
  | divisorZero        -- (f) DIVS, imm5 = 0
deriving DecidableEq, Repr

/-- op, bits [15:11] (30_encoding.md R46). -/
def opField (word : CommandWord) : BitVec 5 := word.extractLsb' 11 5

/-- w, bit [10] (30_encoding.md R46). -/
def widthField (word : CommandWord) : BitVec 1 := word.extractLsb' 10 1

/-- The reserved bits [9:6] (30_encoding.md R46). -/
def reservedField (word : CommandWord) : BitVec 4 := word.extractLsb' 6 4

/-- f = pos6, bits [5:0] (30_encoding.md R46, R49). -/
def operandField (word : CommandWord) : Position := word.extractLsb' 0 6

/-- imm5, bits [4:0] (30_encoding.md R48). -/
def immField (word : CommandWord) : Small := word.extractLsb' 0 5

/-- Bit 5, which format I requires to be 0 (30_encoding.md R48). -/
def bit5Field (word : CommandWord) : BitVec 1 := word.extractLsb' 5 1

/-- W = 128 if w = 0, else 256 (30_encoding.md R51). -/
def widthOf (b : BitVec 1) : Width := if b = 0#1 then .w128 else .w256

/-- Format N: width, no operand (30_encoding.md R47). -/
def decodeN (word : CommandWord) (c : Width → Instr) : Except DecodeError Instr :=
  if operandField word ≠ 0#6 then .error .operandNotZero else .ok (c (widthOf (widthField word)))

/-- Format I: width and 5-bit immediate (30_encoding.md R48). -/
def decodeI (word : CommandWord) (c : Width → Small → Instr) : Except DecodeError Instr :=
  if bit5Field word ≠ 0#1 then .error .immediateBit5
  else .ok (c (widthOf (widthField word)) (immField word))

/-- DIVS: format I with imm5 not 0 (30_encoding.md R48, R53 (f)). -/
def decodeDivs (word : CommandWord) : Except DecodeError Instr :=
  if bit5Field word ≠ 0#1 then .error .immediateBit5
  else if immField word = 0#5 then .error .divisorZero
  else .ok (.divs (widthOf (widthField word)) (immField word))

/-- Format P: 6-bit buffer position, no width (30_encoding.md R49). -/
def decodeP (word : CommandWord) (c : Position → Instr) : Except DecodeError Instr :=
  if widthField word ≠ 0#1 then .error .widthBitSet else .ok (c (operandField word))

/-- Format M: no field (30_encoding.md R50). -/
def decodeM (word : CommandWord) (c : Instr) : Except DecodeError Instr :=
  if widthField word ≠ 0#1 then .error .widthBitSet
  else if operandField word ≠ 0#6 then .error .operandNotZero
  else .ok c

/-- The opcode map (30_encoding.md R52). -/
def decodeOp (word : CommandWord) : Except DecodeError Instr :=
  match (opField word).toNat with
  | 0x01 => decodeN word .zero
  | 0x02 => decodeN word .ldbe
  | 0x03 => decodeN word .stbe
  | 0x04 => decodeI word .shl
  | 0x05 => decodeI word .shr
  | 0x06 => decodeI word .orli
  | 0x07 => decodeN word .orlr
  | 0x08 => decodeN word .low5
  | 0x09 => decodeN word .isz
  | 0x0A => decodeDivs word
  | 0x0B => decodeN word .dec
  | 0x0C => decodeP word .b32e
  | 0x0D => decodeP word .b32d
  | 0x10 => decodeM word .accenc
  | 0x11 => decodeM word .accdec
  | 0x12 => decodeM word .baldec
  | 0x13 => decodeM word .balenc
  | _ => .error .unassignedOpcode

/-- Every word decodes to exactly one command or is illegal (30_encoding.md R45, R53). -/
def decode (word : CommandWord) : Except DecodeError Instr :=
  if reservedField word ≠ 0#4 then .error .reservedBits else decodeOp word

/-- What the decoder reads from a word given as a number; a command word has no byte order and exactly 16 bits
(20_memory.md R34, 30_encoding.md R45), so a longer row is no command. -/
def decodeTableWord (nbits w : Nat) : Option Instr :=
  if nbits ≤ 16 ∧ w < 2 ^ 16 then (decode (BitVec.ofNat 16 w)).toOption else none

/-- w = 0 for W = 128, w = 1 for W = 256 (30_encoding.md R46). -/
def widthBit : Width → BitVec 1
  | .w128 => 0#1
  | .w256 => 1#1

/-- Format N (30_encoding.md R47). -/
def encodeN (op : BitVec 5) (w : Width) : CommandWord := op ++ widthBit w ++ 0#4 ++ 0#6

/-- Format I (30_encoding.md R48). -/
def encodeI (op : BitVec 5) (w : Width) (imm : Small) : CommandWord := op ++ widthBit w ++ 0#4 ++ 0#1 ++ imm

/-- Format P (30_encoding.md R49). -/
def encodeP (op : BitVec 5) (pos : Position) : CommandWord := op ++ 0#1 ++ 0#4 ++ pos

/-- Format M (30_encoding.md R50). -/
def encodeM (op : BitVec 5) : CommandWord := op ++ 0#1 ++ 0#4 ++ 0#6

/-- The one word of a well-formed command (30_encoding.md R52). -/
def encode (i : Instr) : CommandWord :=
  match i with
  | .zero w => encodeN 0x01#5 w
  | .ldbe w => encodeN 0x02#5 w
  | .stbe w => encodeN 0x03#5 w
  | .shl w n => encodeI 0x04#5 w n
  | .shr w n => encodeI 0x05#5 w n
  | .orli w x => encodeI 0x06#5 w x
  | .orlr w => encodeN 0x07#5 w
  | .low5 w => encodeN 0x08#5 w
  | .isz w => encodeN 0x09#5 w
  | .divs w d => encodeI 0x0A#5 w d
  | .dec w => encodeN 0x0B#5 w
  | .b32e p => encodeP 0x0C#5 p
  | .b32d p => encodeP 0x0D#5 p
  | .accenc => encodeM 0x10#5
  | .accdec => encodeM 0x11#5
  | .baldec => encodeM 0x12#5
  | .balenc => encodeM 0x13#5

end Sys2Proof
end

