-- ==== Sys2Proof/Config.lean ====
section
/-! DEFINITION. The parameters of the engine (00_scope.md R5). Every one has its value in the spec; the one OPEN
parameter, HostBinding, is one on which no rule depends, so there is nothing of it here. No free value is needed: the
spec leaves no result of a legal command undefined (93_implementation_defined.md U1 to U14). -/

namespace Sys2Proof.Config

/-- IBUF capacity in bytes (00_scope.md R5, 10_state.md R21). -/
abbrev ibufSize : Nat := 64

/-- OBUF capacity in bytes (00_scope.md R5, 10_state.md R22). -/
abbrev obufSize : Nat := 78

/-- What a buffer byte that no cell lists reads as: the reset content of both buffers (10_state.md R26). -/
abbrev unlistedByte : Byte := 0x00#8

end Sys2Proof.Config
end

