-- ==== Sys2Proof/Machine/State.lean ====
section
/-! DEFINITION. The engine's state as plain data (10_state.md R10 to R26), the error kinds (60_exceptions.md R105), the
host transactions that wait to be applied (10_state.md R24), the reasons a step can stop, and reset. -/

namespace Sys2Proof.Machine

/-- A byte buffer: (index, byte) cells in the canonical form of `Memory.wf`; an index with no cell reads
`Config.unlistedByte` (10_state.md R21, R22, R26). -/
abbrev Memory := List Host.Cell

/-- The five error kinds (60_exceptions.md R105). -/
inductive ErrorKind where
  | invalidFormat      -- wrong string length, or wrong or missing prefix
  | invalidCharacter   -- a character outside the alphabet
  | invalidLength      -- an input buffer that is not exactly the required byte count
  | unimplemented      -- balance encoding
  | illegalCommand     -- a command word that 30_encoding.md R53 makes illegal
deriving DecidableEq, Repr

/-- What `HostRead(name)` and `HostReadOBUF(i)` can name (10_state.md R24). -/
inductive Port where
  | a128
  | a256
  | r
  | z
  | err
  | ilen
  | olen
  | ibuf (i : Fin Config.ibufSize)
  | obuf (i : Fin Config.obufSize)
deriving DecidableEq, Repr

/-- The value a transaction returns to the host (10_state.md R24); each read returns at the width of what it reads. -/
inductive Reply where
  | none                       -- no transaction yet, or one that returns nothing
  | err (e : BitVec 3)         -- HostIssue, or a read of ERR
  | wide128 (v : BitVec 128)   -- a read of A128
  | wide256 (v : BitVec 256)   -- a read of A256
  | small (v : Small)          -- a read of R
  | flag (b : Bool)            -- a read of Z
  | length (n : BitVec 8)      -- a read of ILEN or OLEN
  | byte (b : Byte)            -- a read of a buffer byte
deriving DecidableEq, Repr

/-- What the host does to the engine, between commands only: the four transactions of 10_state.md R24, and the reset
that is applied from outside (70_reset_and_hazards.md R125). -/
inductive Transaction where
  | writeIbuf (i : Fin Config.ibufSize) (b : Byte)   -- HostWriteIBUF(i, b)
  | setIlen (n : BitVec 8)                           -- HostSetILEN(n)
  | issue (word : CommandWord)                       -- HostIssue(word)
  | read (port : Port)                               -- HostRead(name), HostReadOBUF(i)
  | reset                                            -- reset, R125
deriving DecidableEq, Repr

/-- Everything the spec gives the engine (10_state.md R26), and two fields of the model's own, `pending` and `reply`,
that carry the host interface (log entries 1 and 2). -/
structure State where
  /-- Accumulator A128 (R10). -/
  a128 : BitVec 128
  /-- Accumulator A256 (R10). -/
  a256 : BitVec 256
  /-- The small-integer register R (R11). -/
  r : Small
  /-- The flag Z; true is 1 (R14). -/
  z : Bool
  /-- ERR, the result of the most recent command (R18). -/
  err : BitVec 3
  /-- ILEN (R19). -/
  ilen : BitVec 8
  /-- OLEN (R20). -/
  olen : BitVec 8
  /-- IBUF (R21). -/
  ibuf : Memory
  /-- OBUF (R22). -/
  obuf : Memory
  /-- DESIGN CHOICE (log entry 1), safe: the host's transactions not yet applied, oldest first (R16, R24). -/
  pending : List Transaction
  /-- DESIGN CHOICE (log entry 2), safe: what the most recent transaction returned to the host (R24). -/
  reply : Reply
deriving DecidableEq, Repr

/-- No step of the engine stops with a fault: its errors are recorded in ERR and it goes on (60_exceptions.md R110,
R112), and no index outside a buffer can be formed (20_memory.md R39). The type has no constructor. -/
inductive Fault where
deriving DecidableEq, Repr

/-- Reasons the model gives an instruction no meaning. -/
inductive Refusal where
  /-- Raised by an arm of `exec` for an instruction with no meaning yet; safe. No arm of this model raises it. -/
  | notModelled (mnemonic : String)
deriving DecidableEq, Repr

/-- The state right after reset (10_state.md R26, 70_reset_and_hazards.md R125): every register 0 and every buffer byte
0x00. The model's own fields are empty: no transaction waits and none has returned anything (log entries 1 and 2). -/
def State.reset : State where
  a128 := 0#128
  a256 := 0#256
  r := 0#5
  z := false
  err := 0#3
  ilen := 0#8
  olen := 0#8
  ibuf := []
  obuf := []
  pending := []
  reply := .none

end Sys2Proof.Machine
end

