-- ==== Sys2Proof/Machine/Ops.lean ====
section
/-! DEFINITION. The named operations over buffers and registers (00_scope.md R7), and how a command ends: `raise` is
error entry (60_exceptions.md R110) and `complete` is success (R109). There is no return from an error (R112): the next
command simply runs, so no operation stands beside `raise` for it. -/

namespace Sys2Proof.Machine

/-- What a step answers on this engine. -/
abbrev Result := Host.Outcome State Fault Refusal

/-- IBUF[i] or OBUF[i]: one byte (00_scope.md R7). -/
def Memory.read (m : Memory) (i : Nat) : Byte :=
  match m with
  | [] => Config.unlistedByte
  | c :: rest => if c.1 = i then c.2 else Memory.read rest i

/-- Put a cell at its place among cells of rising index. -/
def Memory.place (m : Memory) (i : Nat) (b : Byte) : Memory :=
  match m with
  | [] => [(i, b)]
  | c :: rest => if i < c.1 then (i, b) :: c :: rest else c :: Memory.place rest i b

/-- The cells of every other index. -/
def Memory.erase (m : Memory) (i : Nat) : Memory := m.filter (fun c => c.1 != i)

/-- Write one byte; a byte equal to what an unlisted index reads as leaves no cell (00_scope.md R7, 20_memory.md R38:
writing a byte changes that byte only). -/
def Memory.write (m : Memory) (i : Nat) (b : Byte) : Memory :=
  if b = Config.unlistedByte then m.erase i else (m.erase i).place i b

/-- The byte string at indices a, …, a + n - 1: the spec's MemRead (00_scope.md R7). -/
def Memory.readRange (m : Memory) (a n : Nat) : List Byte := (List.range n).map (fun k => m.read (a + k))

/-- Write the bytes in order from index a: the spec's MemWrite (00_scope.md R7). -/
def Memory.writeRange (m : Memory) (a : Nat) (bytes : List Byte) : Memory :=
  match bytes with
  | [] => m
  | b :: rest => Memory.writeRange (m.write a b) (a + 1) rest

/-- The canonical form of a buffer of a given size: indices strictly rising and inside the buffer, and no cell equal to
what an unlisted index reads as. -/
abbrev Memory.wf (size : Nat) (m : Memory) : Prop :=
  m.Pairwise (fun c d => c.1 < d.1) ∧ ∀ c ∈ m, c.1 < size ∧ c.2 ≠ Config.unlistedByte

/-- Write R (10_state.md R11). -/
def State.setR (s : State) (v : Small) : State := { s with r := v }

/-- Write Z (10_state.md R14). -/
def State.setZ (s : State) (b : Bool) : State := { s with z := b }

/-- Write ERR (10_state.md R18). -/
def State.setErr (s : State) (e : BitVec 3) : State := { s with err := e }

/-- Write ILEN; the host alone does (10_state.md R19). -/
def State.setIlen (s : State) (n : BitVec 8) : State := { s with ilen := n }

/-- Write OLEN (10_state.md R20). -/
def State.setOlen (s : State) (n : BitVec 8) : State := { s with olen := n }

/-- Replace IBUF's contents; the host alone does (10_state.md R21). -/
def State.setIbuf (s : State) (m : Memory) : State := { s with ibuf := m }

/-- Replace OBUF's contents (10_state.md R22). -/
def State.setObuf (s : State) (m : Memory) : State := { s with obuf := m }

/-- Replace the host's waiting transactions (log entry 1). -/
def State.setPending (s : State) (ts : List Transaction) : State := { s with pending := ts }

/-- Record what a transaction returned (log entry 2). -/
def State.setReply (s : State) (v : Reply) : State := { s with reply := v }

/-- A[W], read (00_scope.md R7, 10_state.md R10). -/
def State.acc (s : State) (w : Width) : BitVec w.bits :=
  match w with
  | .w128 => s.a128
  | .w256 => s.a256

/-- A[W] <- v; the other accumulator is not touched (00_scope.md R7, 10_state.md R10). -/
def State.setAcc (s : State) (w : Width) (v : BitVec w.bits) : State :=
  match w with
  | .w128 => { s with a128 := v }
  | .w256 => { s with a256 := v }

/-- The code of an error kind in ERR (10_state.md R18, 60_exceptions.md R105). -/
def ErrorKind.code (k : ErrorKind) : BitVec 3 :=
  match k with
  | .invalidFormat => 1#3
  | .invalidCharacter => 2#3
  | .invalidLength => 3#3
  | .unimplemented => 4#3
  | .illegalCommand => 5#3

/-- Error entry: ERR gets the kind's code and nothing else changes (60_exceptions.md R110). -/
def raise (k : ErrorKind) (s : State) : Result := .next (s.setErr k.code)

/-- Success: ERR gets 0 as the command's last write (60_exceptions.md R109). -/
def complete (s : State) : Result := .next (s.setErr 0#3)

/-- A whole output: OBUF[0..k-1] gets the k bytes and OLEN gets k; every other OBUF byte keeps its value
(10_state.md R20, R22). -/
def State.emit (s : State) (bytes : List Byte) : State :=
  (s.setObuf (s.obuf.writeRange 0 bytes)).setOlen (BitVec.ofNat 8 bytes.length)

end Sys2Proof.Machine
end

