-- ==== Sys2Proof/Machine/Operands.lean ====
section
/-! DEFINITION. The pure value functions every command is built from (00_scope.md R8). They are stated at every width,
because the scratch values of the macro commands have widths of their own (10_state.md R23). Each computes on naturals
and narrows at the end. -/

namespace Sys2Proof.Machine

/-- shl_W: bits shifted out are discarded (R8). -/
def shiftLeft {W : Nat} (v : BitVec W) (n : Small) : BitVec W := BitVec.ofNat W (v.toNat * 2 ^ n.toNat)

/-- shr_W: zeros enter at the top (R8). -/
def shiftRight {W : Nat} (v : BitVec W) (n : Small) : BitVec W := BitVec.ofNat W (v.toNat / 2 ^ n.toNat)

/-- orlow_W: OR with the zero-extended small integer (R8, 30_encoding.md R51). -/
def orLow {W : Nat} (v : BitVec W) (x : Small) : BitVec W := v ||| x.setWidth W

/-- low5: the value mod 32 (R8). -/
def lowestFive {W : Nat} (v : BitVec W) : Small := BitVec.ofNat 5 (v.toNat % 32)

/-- divs_W, quotient and remainder, for d at least 1 (R8). -/
def divSmall {W : Nat} (v : BitVec W) (d : Small) : BitVec W × Small :=
  (BitVec.ofNat W (v.toNat / d.toNat), BitVec.ofNat 5 (v.toNat % d.toNat))

/-- The big-endian value of a byte string: its first byte is the most significant (R8, 20_memory.md R31). -/
def bigEndianValue (bytes : List Byte) : Nat :=
  match bytes with
  | [] => 0
  | b :: rest => b.toNat * 256 ^ rest.length + bigEndianValue rest

/-- be_load_W (R8). -/
def loadBigEndian (W : Nat) (bytes : List Byte) : BitVec W := BitVec.ofNat W (bigEndianValue bytes)

/-- be_store_W, at `count` bytes (R8). -/
def storeBigEndian {W : Nat} (count : Nat) (v : BitVec W) : List Byte :=
  (List.range count).map (fun i => BitVec.ofNat 8 (v.toNat / 256 ^ (count - 1 - i)))

/-- The little-endian value of a byte string: its first byte is the least significant (R8, 20_memory.md R32). -/
def littleEndianValue (bytes : List Byte) : Nat :=
  match bytes with
  | [] => 0
  | c :: rest => c.toNat + 256 * littleEndianValue rest

/-- le_load_40: the checksum integer (R8, 20_memory.md R32; UNVERIFIED in the source, log entry 5). -/
def loadLittleEndian (W : Nat) (bytes : List Byte) : BitVec W := BitVec.ofNat W (littleEndianValue bytes)

/-- le_store_40, at `count` bytes (R8, 20_memory.md R32; UNVERIFIED in the source, log entry 5). -/
def storeLittleEndian {W : Nat} (count : Nat) (v : BitVec W) : List Byte :=
  (List.range count).map (fun j => BitVec.ofNat 8 (v.toNat / 256 ^ j))

end Sys2Proof.Machine
end

