-- ==== Sys2Proof/Machine/Flags.lean ====
section
/-! DEFINITION. The one flag computation (10_state.md R14): there is no carry, overflow, sign or parity flag (R15). -/

namespace Sys2Proof.Machine

/-- iszero: 1 if all W bits are 0, else 0 (00_scope.md R8). -/
def isZero {W : Nat} (v : BitVec W) : Bool := v.toNat == 0

end Sys2Proof.Machine
end

