-- ==== Sys2Proof/Machine/Account.lean ====
section
/-! DEFINITION. The digit tables, B32E, B32D and the account codec ACCENC, ACCDEC (42_base32_account.md). -/

namespace Sys2Proof.Machine

/-- The 32 characters of the alphabet, digit 0 first (R86; byte values PRESUMED by the spec, log entry 6). -/
def alphabet : List Byte :=
  [0x31#8, 0x33#8, 0x34#8, 0x35#8, 0x36#8, 0x37#8, 0x38#8, 0x39#8,
   0x61#8, 0x62#8, 0x63#8, 0x64#8, 0x65#8, 0x66#8, 0x67#8, 0x68#8,
   0x69#8, 0x6A#8, 0x6B#8, 0x6D#8, 0x6E#8, 0x6F#8, 0x70#8, 0x71#8,
   0x72#8, 0x73#8, 0x74#8, 0x75#8, 0x77#8, 0x78#8, 0x79#8, 0x7A#8]

/-- ALPHA (R86). -/
def alpha (v : Small) : Byte := alphabet.getD v.toNat 0x00#8

/-- All 32 digits, in order. -/
def allDigits : List Small := (List.range 32).map (BitVec.ofNat 5)

/-- INV (R87): the digit whose character a byte is, or none where the table is undefined. -/
def inv (b : Byte) : Option Small := allDigits.find? (fun v => alpha v == b)

/-- INV on a whole string: none as soon as one byte is no alphabet character (R92 step 2). -/
def invAll (bytes : List Byte) : Option (List Small) :=
  match bytes with
  | [] => some []
  | b :: rest =>
    match inv b with
    | none => none
    | some d =>
      match invAll rest with
      | none => none
      | some ds => some (d :: ds)

/-- B32E p (R88): OLEN is not changed. -/
def execB32e (p : Position) (s : State) : Result := complete (s.setObuf (s.obuf.write p.toNat (alpha s.r)))

/-- B32D p (R89): ILEN is not consulted. -/
def execB32d (p : Position) (s : State) : Result :=
  match inv (s.ibuf.read p.toNat) with
  | none => raise .invalidCharacter s
  | some d => complete (s.setR d)

/-- The digits of a value, least significant first: take the low five bits, then shift right by 5 (R90 steps 4, 5). -/
def digitsLowFirst {W : Nat} (count : Nat) (v : BitVec W) : List Small :=
  match count with
  | 0 => []
  | k + 1 => lowestFive v :: digitsLowFirst k (shiftRight v 5#5)

/-- The characters of a value's digits, most significant digit leftmost (R90, 90_conflicts.md C6). -/
def digitString {W : Nat} (count : Nat) (v : BitVec W) : List Byte := (digitsLowFirst count v).reverse.map alpha

/-- Shift left by 5, then OR in the digit, for each digit left to right, from 0 (R92 steps 3, 4). -/
def accumulateDigits (W : Nat) (ds : List Small) : BitVec W :=
  ds.foldl (fun v d => orLow (shiftLeft v 5#5) d) (BitVec.ofNat W 0)

/-- The prefix an encoded address begins with, `xrb_` (R85; PRESUMED by the spec, log entry 6). -/
def addressPrefix : List Byte := [0x78#8, 0x72#8, 0x62#8, 0x5F#8]

/-- The prefixes a decoder accepts: `xrb_` and `xrb-`, byte for byte (R85, R92). -/
def prefixAccepted (bytes : List Byte) : Bool :=
  bytes == addressPrefix || bytes == [0x78#8, 0x72#8, 0x62#8, 0x2D#8]

/-- The 64 characters of a key and a checksum integer (R90 steps 3 to 6). -/
def encodeAddress (key : BitVec 256) (checksum : BitVec 40) : List Byte :=
  addressPrefix ++ digitString 52 key ++ digitString 8 checksum

/-- ACCENC (R90). -/
def execAccenc (s : State) : Result :=
  if s.ilen.toNat ≠ 37 then raise .invalidLength s
  else
    complete (s.emit (encodeAddress (loadBigEndian 256 (s.ibuf.readRange 0 32))
      (loadLittleEndian 40 (s.ibuf.readRange 32 5))))

/-- The 37 bytes that 60 digits decode to: key big-endian, then checksum little-endian (R92 steps 3 to 5). -/
def decodeAddressDigits (ds : List Small) : List Byte :=
  storeBigEndian 32 (accumulateDigits 256 (ds.take 52)) ++ storeLittleEndian 5 (accumulateDigits 40 (ds.drop 52))

/-- ACCDEC (R92): length, then prefix, then characters, all before any write (60_exceptions.md R111). -/
def execAccdec (s : State) : Result :=
  if s.ilen.toNat ≠ 64 then raise .invalidFormat s
  else if !prefixAccepted (s.ibuf.readRange 0 4) then raise .invalidFormat s
  else
    match invAll (s.ibuf.readRange 4 60) with
    | none => raise .invalidCharacter s
    | some ds => complete (s.emit (decodeAddressDigits ds))

end Sys2Proof.Machine
end

