-- ==== Sys2Proof/Machine/Decimal.lean ====
section
/-! DEFINITION. The decimal renderer and DEC.W (41_decimal.md R80 to R83). -/

namespace Sys2Proof.Machine

/-- The ASCII byte of decimal digit r (R80; PRESUMED by the spec from general knowledge, log entry 6). -/
def decimalByte (r : Small) : Byte := BitVec.ofNat 8 (0x30 + r.toNat)

/-- The repeat loop of R80, digits least significant first, at most `steps` times around. -/
def decimalLoop {W : Nat} (steps : Nat) (v : BitVec W) : List Byte :=
  match steps with
  | 0 => []
  | k + 1 =>
    let qr := divSmall v 10#5
    decimalByte qr.2 :: if isZero qr.1 then [] else decimalLoop k qr.1

/-- The most divide-by-ten steps a W-bit value takes (70_reset_and_hazards.md R135; DEDUCED that the loop needs no more,
log entry 12, safe). -/
def maxDecimalDigits : Width → Nat
  | .w128 => 39
  | .w256 => 78

/-- The base-10 digit string of a value, most significant digit first (R80). -/
def decimalString (w : Width) (v : BitVec w.bits) : List Byte := (decimalLoop (maxDecimalDigits w) v).reverse

/-- DEC.W (R80): A[W], R and Z are not changed. -/
def execDec (w : Width) (s : State) : Result := complete (s.emit (decimalString w (s.acc w)))

end Sys2Proof.Machine
end

