-- ==== Sys2Proof/Machine/Balance.lean ====
section
/-! DEFINITION. The balance codec BALDEC, BALENC (43_balance.md). -/

namespace Sys2Proof.Machine

/-- BALDEC (R100): the rendering of DEC.128 without passing through A128. -/
def execBaldec (s : State) : Result :=
  if s.ilen.toNat ≠ 16 then raise .invalidLength s
  else complete (s.emit (decimalString .w128 (loadBigEndian 128 (s.ibuf.readRange 0 16))))

/-- BALENC (R101): always Unimplemented, before any look at the input. -/
def execBalenc (s : State) : Result := raise .unimplemented s

end Sys2Proof.Machine
end

