-- ==== Sys2Proof/Machine/FixedWidth.lean ====
section
/-! DEFINITION. The ten fixed-width integer commands (40_fixedwidth.md R60 to R73). Each reads all it reads before it
writes (R73). -/

namespace Sys2Proof.Machine

/-- ZERO.W (R61). -/
def execZero (w : Width) (s : State) : Result := complete (s.setAcc w (BitVec.ofNat w.bits 0))

/-- LDBE.W (R62): the length is tested before anything is written. -/
def execLdbe (w : Width) (s : State) : Result :=
  if s.ilen.toNat ≠ w.bytes then raise .invalidLength s
  else complete (s.setAcc w (loadBigEndian w.bits (s.ibuf.readRange 0 w.bytes)))

/-- STBE.W (R63): always exactly W/8 bytes. -/
def execStbe (w : Width) (s : State) : Result := complete (s.emit (storeBigEndian w.bytes (s.acc w)))

/-- SHL.W n (R64). -/
def execShl (w : Width) (n : Small) (s : State) : Result := complete (s.setAcc w (shiftLeft (s.acc w) n))

/-- SHR.W n (R65). -/
def execShr (w : Width) (n : Small) (s : State) : Result := complete (s.setAcc w (shiftRight (s.acc w) n))

/-- ORLI.W x (R66): the OR is performed whatever the low bits hold. -/
def execOrli (w : Width) (x : Small) (s : State) : Result := complete (s.setAcc w (orLow (s.acc w) x))

/-- ORLR.W (R67): as ORLI, with the value of R. -/
def execOrlr (w : Width) (s : State) : Result := complete (s.setAcc w (orLow (s.acc w) s.r))

/-- LOW5.W (R68). -/
def execLow5 (w : Width) (s : State) : Result := complete (s.setR (lowestFive (s.acc w)))

/-- ISZ.W (R69): the only command that writes Z. -/
def execIsz (w : Width) (s : State) : Result := complete (s.setZ (isZero (s.acc w)))

/-- DIVS.W d (R70): quotient and remainder both come from the old A[W]. No word decodes to d = 0; the term raises
IllegalCommand as R70 says of d = 0 (DEDUCED, log entry 11, safe). -/
def execDivs (w : Width) (d : Small) (s : State) : Result :=
  if d = 0#5 then raise .illegalCommand s
  else complete ((s.setAcc w (divSmall (s.acc w) d).1).setR (divSmall (s.acc w) d).2)

end Sys2Proof.Machine
end

