-- ==== Sys2Proof/Machine/Dispatch.lean ====
section
/-! DEFINITION. One arm per command (30_encoding.md R52). -/

namespace Sys2Proof.Machine

def exec (i : Instr) (s : State) : Host.Outcome State Fault Refusal :=
  match i with
  | .zero w => Sys2Proof.Machine.execZero w s
  | .ldbe w => Sys2Proof.Machine.execLdbe w s
  | .stbe w => Sys2Proof.Machine.execStbe w s
  | .shl w n => Sys2Proof.Machine.execShl w n s
  | .shr w n => Sys2Proof.Machine.execShr w n s
  | .orli w x => Sys2Proof.Machine.execOrli w x s
  | .orlr w => Sys2Proof.Machine.execOrlr w s
  | .low5 w => Sys2Proof.Machine.execLow5 w s
  | .isz w => Sys2Proof.Machine.execIsz w s
  | .divs w d => Sys2Proof.Machine.execDivs w d s
  | .dec w => Sys2Proof.Machine.execDec w s
  | .b32e p => Sys2Proof.Machine.execB32e p s
  | .b32d p => Sys2Proof.Machine.execB32d p s
  | .accenc => Sys2Proof.Machine.execAccenc s
  | .accdec => Sys2Proof.Machine.execAccdec s
  | .baldec => Sys2Proof.Machine.execBaldec s
  | .balenc => Sys2Proof.Machine.execBalenc s

end Sys2Proof.Machine
end

