-- ==== Sys2Proof/Machine/HostPort.lean ====
section
/-! DEFINITION. The host's transactions (10_state.md R24) and reset (70_reset_and_hazards.md R125), each applied whole
and between commands (20_memory.md R38). -/

namespace Sys2Proof.Machine

/-- HostIssue returns the new value of ERR (R24). -/
def answerErr (o : Result) : Result :=
  match o with
  | .next t => .next (t.setReply (.err t.err))
  | .fault f => .fault f
  | .refused r => .refused r

/-- HostIssue(word): legality of the word is tested before anything else (60_exceptions.md R108, R111); a legal word
executes to completion. -/
def hostIssue (word : CommandWord) (s : State) : Result :=
  match decode word with
  | .ok i => answerErr (exec i s)
  | .error _ => answerErr (raise .illegalCommand s)

/-- HostWriteIBUF(i, b) (R24); it returns nothing. -/
def hostWriteIbuf (i : Fin Config.ibufSize) (b : Byte) (s : State) : Result :=
  .next ((s.setIbuf (s.ibuf.write i.val b)).setReply .none)

/-- HostSetILEN(n) (R24); it returns nothing. -/
def hostSetIlen (n : BitVec 8) (s : State) : Result := .next ((s.setIlen n).setReply .none)

/-- The current value of what a read names (R24). -/
def portValue (port : Port) (s : State) : Reply :=
  match port with
  | .a128 => .wide128 s.a128
  | .a256 => .wide256 s.a256
  | .r => .small s.r
  | .z => .flag s.z
  | .err => .err s.err
  | .ilen => .length s.ilen
  | .olen => .length s.olen
  | .ibuf i => .byte (s.ibuf.read i.val)
  | .obuf i => .byte (s.obuf.read i.val)

/-- HostRead(name), HostReadOBUF(i): returns the value and changes nothing (R24). -/
def hostRead (port : Port) (s : State) : Result := .next (s.setReply (portValue port s))

/-- Reset (70_reset_and_hazards.md R125): every piece of the engine's state takes its reset value. What the host still
has waiting is the host's and stays (DESIGN CHOICE, log entry 7, safe). -/
def hostReset (s : State) : Result := .next (State.reset.setPending s.pending)

/-- One transaction. -/
def applyTransaction (t : Transaction) (s : State) : Result :=
  match t with
  | .writeIbuf i b => hostWriteIbuf i b s
  | .setIlen n => hostSetIlen n s
  | .issue word => hostIssue word s
  | .read port => hostRead port s
  | .reset => hostReset s

/-- Apply the oldest waiting transaction; with none waiting the engine is idle and nothing changes
(60_exceptions.md R120, 70_reset_and_hazards.md R128; DEDUCED, log entry 3, safe). -/
def advance (s : State) : Result :=
  match s.pending with
  | [] => .next s
  | t :: rest => applyTransaction t (s.setPending rest)

/-- The writes to IBUF of a byte string from index i on, as far as the buffer reaches. -/
def presentBytes (i : Nat) (bytes : List Byte) : List Transaction :=
  match bytes with
  | [] => []
  | b :: rest => if h : i < Config.ibufSize then .writeIbuf ⟨i, h⟩ b :: presentBytes (i + 1) rest else []

/-- How the host presents a byte string of length L: IBUF[i] for every i < min(L, 64), then ILEN = min(L, 255)
(10_state.md R19). -/
def presentInput (bytes : List Byte) : List Transaction :=
  presentBytes 0 bytes ++ [.setIlen (BitVec.ofNat 8 (min bytes.length 255))]

end Sys2Proof.Machine
end

