-- ==== Sys2Proof/Machine/Step.lean ====
section
/-! DEFINITION. One step: the engine has no program counter and fetches nothing (10_state.md R16); it applies the
oldest transaction the host has waiting. -/

namespace Sys2Proof.Machine

/-- One atomic transition (20_memory.md R38, R41). -/
def step (s : State) : Host.Outcome State Fault Refusal := advance s

/-- The host issues the word next: HostIssue of it stands before everything else the host has waiting (R24). -/
def State.withFetchWord (s : State) (nbits w : Nat) : State :=
  s.setPending (.issue (BitVec.ofNat 16 (w % 2 ^ nbits)) :: s.pending)

end Sys2Proof.Machine
end

