-- ==== Sys2Proof/Safety.lean ====
section
/-! DEFINITION. The terms the claims use: which pieces of state two states share, which words are illegal, which command
may read, write and raise what, and the invariant of the engine. Each is written from the spec's tables, not from the
machine. -/

namespace Sys2Proof.Machine

/-- The pieces of state of 10_state.md R26, and the model's two own. -/
inductive Part where
  | a128 | a256 | r | z | err | ilen | olen | ibuf | obuf | pending | reply
deriving DecidableEq, Repr

/-- Two states hold the same in one piece; a buffer is compared byte by byte. -/
def Part.agrees (p : Part) (s t : State) : Prop :=
  match p with
  | .a128 => t.a128 = s.a128
  | .a256 => t.a256 = s.a256
  | .r => t.r = s.r
  | .z => t.z = s.z
  | .err => t.err = s.err
  | .ilen => t.ilen = s.ilen
  | .olen => t.olen = s.olen
  | .ibuf => ∀ k, t.ibuf.read k = s.ibuf.read k
  | .obuf => ∀ k, t.obuf.read k = s.obuf.read k
  | .pending => t.pending = s.pending
  | .reply => t.reply = s.reply

/-- Every piece of state outside a list is unchanged: the frame of a command. -/
def KeepsAllBut (changed : List Part) (s t : State) : Prop := ∀ p, p ∉ changed → p.agrees s t

/-- The accumulator a width selects (10_state.md R10). -/
def accPart : Width → Part
  | .w128 => .a128
  | .w256 => .a256

/-- A command that fails: ERR gets the kind's code and nothing else changes (60_exceptions.md R110). -/
def Fails (k : ErrorKind) (i : Instr) (s : State) : Prop :=
  ∃ t, exec i s = .next t ∧ t.err = k.code ∧ KeepsAllBut [.err] s t

/-- The word of 30_encoding.md R52: the row's word, plus 0x0400 for W = 256, plus the operand value. -/
def tableWord (row : Nat) (w : Width) (operand : Nat) : CommandWord :=
  BitVec.ofNat 16 (row + (if w = .w256 then 0x0400 else 0) + operand)

/-- op, bits [15:11] of a word read as a number (30_encoding.md R46). -/
def opNumber (word : CommandWord) : Nat := word.toNat / 2 ^ 11

/-- The illegal words, clauses (a) to (f) of 30_encoding.md R53 on the word read as a number. -/
abbrev IllegalWord (word : CommandWord) : Prop :=
  (opNumber word = 0x00 ∨ opNumber word = 0x0E ∨ opNumber word = 0x0F ∨ 0x14 ≤ opNumber word)
  ∨ word.toNat / 2 ^ 6 % 2 ^ 4 ≠ 0
  ∨ (opNumber word ∈ [0x04, 0x05, 0x06, 0x0A] ∧ word.toNat / 2 ^ 5 % 2 ≠ 0)
  ∨ (opNumber word ∈ [0x01, 0x02, 0x03, 0x07, 0x08, 0x09, 0x0B, 0x10, 0x11, 0x12, 0x13] ∧ word.toNat % 2 ^ 6 ≠ 0)
  ∨ (opNumber word ∈ [0x0C, 0x0D, 0x10, 0x11, 0x12, 0x13] ∧ word.toNat / 2 ^ 10 % 2 ≠ 0)
  ∨ (opNumber word = 0x0A ∧ word.toNat % 2 ^ 5 = 0)

/-- The registers a command reads (10_state.md R12). -/
def readsRegisters : Instr → List Part
  | .zero _ | .b32d _ | .balenc => []
  | .ldbe _ | .accenc | .accdec | .baldec => [.ilen]
  | .stbe w | .shl w _ | .shr w _ | .orli w _ | .low5 w | .isz w | .divs w _ | .dec w => [accPart w]
  | .orlr w => [accPart w, .r]
  | .b32e _ => [.r]

/-- The IBUF indices a command reads (10_state.md R12). -/
def readsIbuf : Instr → List Nat
  | .ldbe w => List.range w.bytes
  | .b32d p => [p.toNat]
  | .accenc => List.range 37
  | .accdec => List.range 64
  | .baldec => List.range 16
  | .zero _ | .stbe _ | .shl _ _ | .shr _ _ | .orli _ _ | .orlr _ | .low5 _ | .isz _ | .divs _ _ | .dec _
  | .b32e _ | .balenc => []

/-- What a command that succeeds writes, ERR apart (10_state.md R12). -/
def writesParts : Instr → List Part
  | .zero w | .ldbe w | .shl w _ | .shr w _ | .orli w _ | .orlr w => [accPart w]
  | .low5 _ | .b32d _ => [.r]
  | .isz _ => [.z]
  | .divs w _ => [accPart w, .r]
  | .stbe _ | .dec _ | .accenc | .accdec | .baldec => [.obuf, .olen]
  | .b32e _ => [.obuf]
  | .balenc => []

/-- The OBUF indices a command that succeeds writes (10_state.md R12); len is the length of the rendered string. -/
def writesObuf (i : Instr) (s : State) : List Nat :=
  match i with
  | .stbe w => List.range w.bytes
  | .dec w => List.range (decimalString w (s.acc w)).length
  | .b32e p => [p.toNat]
  | .accenc => List.range 64
  | .accdec => List.range 37
  | .baldec => List.range (decimalString .w128 (loadBigEndian 128 (s.ibuf.readRange 0 16))).length
  | .zero _ | .ldbe _ | .shl _ _ | .shr _ _ | .orli _ _ | .orlr _ | .low5 _ | .isz _ | .divs _ _ | .b32d _
  | .balenc => []

/-- The four bytes at IBUF[0..3] are `xrb_` or `xrb-` (42_base32_account.md R85, R92). -/
def PrefixIsXrb (s : State) : Prop :=
  s.ibuf.read 0 = 0x78#8 ∧ s.ibuf.read 1 = 0x72#8 ∧ s.ibuf.read 2 = 0x62#8 ∧
    (s.ibuf.read 3 = 0x5F#8 ∨ s.ibuf.read 3 = 0x2D#8)

/-- The causes of 60_exceptions.md R105: command i, issued in state s, has this reason to raise kind k. -/
def HasCause (k : ErrorKind) (i : Instr) (s : State) : Prop :=
  match k with
  | .invalidFormat => i = .accdec ∧ (s.ilen.toNat ≠ 64 ∨ ¬ PrefixIsXrb s)
  | .invalidCharacter =>
      (i = .accdec ∧ ∃ j, 4 ≤ j ∧ j ≤ 63 ∧ inv (s.ibuf.read j) = none)
      ∨ ∃ p, i = .b32d p ∧ inv (s.ibuf.read p.toNat) = none
  | .invalidLength =>
      (∃ w, i = .ldbe w ∧ s.ilen.toNat ≠ w.bytes) ∨ (i = .accenc ∧ s.ilen.toNat ≠ 37)
      ∨ (i = .baldec ∧ s.ilen.toNat ≠ 16)
  | .unimplemented => i = .balenc
  | .illegalCommand => ∃ w, i = .divs w 0#5

/-- The kinds a command can raise (60_exceptions.md R106). -/
def canRaise : Instr → List ErrorKind
  | .ldbe _ | .accenc | .baldec => [.invalidLength]
  | .accdec => [.invalidFormat, .invalidCharacter]
  | .balenc => [.unimplemented]
  | .b32d _ => [.invalidCharacter]
  | .zero _ | .stbe _ | .shl _ _ | .shr _ _ | .orli _ _ | .orlr _ | .low5 _ | .isz _ | .divs _ _ | .dec _
  | .b32e _ => []

/-- The in-place commands, which read the accumulator they change (20_memory.md R38). -/
def inPlace : Instr → Bool
  | .shl _ _ | .shr _ _ | .orli _ _ | .orlr _ | .divs _ _ => true
  | .zero _ | .ldbe _ | .stbe _ | .low5 _ | .isz _ | .dec _ | .b32e _ | .b32d _ | .accenc | .accdec
  | .baldec | .balenc => false

/-- Commands one after another, each from the state the one before it left (20_memory.md R41). -/
def execAll (cs : List Instr) (s : State) : Result :=
  match cs with
  | [] => .next s
  | i :: rest =>
    match exec i s with
    | .next t => execAll rest t
    | .fault f => .fault f
    | .refused r => .refused r

/-- Host transactions one after another (20_memory.md R41). -/
def applyAll (ts : List Transaction) (s : State) : Result :=
  match ts with
  | [] => .next s
  | x :: rest =>
    match applyTransaction x s with
    | .next t => applyAll rest t
    | .fault f => .fault f
    | .refused r => .refused r

/-- The engine's invariant: both buffers are in canonical form inside their sizes (10_state.md R21, R22), ERR holds a
code that occurs (R18) and OLEN does not exceed OBUF (R20). -/
def State.inv (s : State) : Prop :=
  s.ibuf.wf Config.ibufSize ∧ s.obuf.wf Config.obufSize ∧ s.err.toNat ≤ 5 ∧ s.olen.toNat ≤ Config.obufSize

end Sys2Proof.Machine
end

