-- ==== Sys2Proof/Certificates/Slice0/Obligations.lean ====
section
/-! DEFINITION. The statements for the provers. Each docstring names the rule of spec/ it formalises; a frame is said
with `KeepsAllBut`, which compares the buffers byte by byte. -/

open Sys2Proof Sys2Proof.Machine

/-! Encoding -/

/-- 30_encoding.md, section 3: the word of every well-formed command decodes to that command. -/
def Obligations.EncodedCommandDecodesToItself : Prop :=
  ∀ i : Instr, i.wf = true → decode (encode i) = .ok i

/-- 30_encoding.md, sections 1 and 3: each word means at most one command, and no bit of it is dropped. -/
def Obligations.DecodedWordEncodesBack : Prop :=
  ∀ (word : CommandWord) (i : Instr), decode word = .ok i → i.wf = true ∧ encode i = word

/-- 30_encoding.md, section 4 (R53), and 60_exceptions.md, section 1 (R108): exactly the words of clauses (a) to (f) are
refused; each raises IllegalCommand and changes nothing else in the engine; the all-zero and all-one words are among
them; 400 are legal. That the step takes the transaction off the waiting list and holds the answer in `reply` is the
model's choice (log entries 1 and 2). -/
def Obligations.IllegalWordsAreThoseOfTheSixClauses : Prop :=
  (∀ word : CommandWord, (∃ e, decode word = .error e) ↔ IllegalWord word)
  ∧ (∀ (s : State) (word : CommandWord) (rest : List Transaction), IllegalWord word → s.pending = .issue word :: rest →
      ∃ t, step s = .next t ∧ t.err = 5#3 ∧ t.pending = rest ∧ t.reply = .err 5#3
        ∧ KeepsAllBut [.err, .pending, .reply] s t)
  ∧ IllegalWord 0x0000#16 ∧ IllegalWord 0xFFFF#16
  ∧ ((List.range 65536).filter (fun n => (decode (BitVec.ofNat 16 n)).isOk)).length = 400

/-- 30_encoding.md, section 3, its examples and one word per format: a sanity statement. -/
def Obligations.SampleWordsDecodeAsTheSpecWritesThem : Prop :=
  decode 0x2405#16 = .ok (.shl .w256 5#5) ∧ decode 0x2C05#16 = .ok (.shr .w256 5#5)
  ∧ decode 0x500A#16 = .ok (.divs .w128 10#5) ∧ decode 0x1000#16 = .ok (.ldbe .w128)
  ∧ decode 0x1400#16 = .ok (.ldbe .w256) ∧ decode 0x6037#16 = .ok (.b32e 55#6)
  ∧ decode 0x6804#16 = .ok (.b32d 4#6) ∧ decode 0x8800#16 = .ok .accdec

/-! A step and the host interface -/

/-- 10_state.md, section 7: when the oldest waiting transaction issues a word that decodes to command i, the step takes
the transaction off the list, is i's meaning on the state that leaves, and answers the host the new ERR. The list and
the reply are the model's (log entries 1 and 2). -/
def Obligations.StepRunsTheDecodedCommand : Prop :=
  ∀ (s : State) (word : CommandWord) (rest : List Transaction) (i : Instr),
    s.pending = .issue word :: rest → decode word = .ok i →
      ∃ t, exec i (s.setPending rest) = .next t ∧ step s = .next (t.setReply (.err t.err)) ∧ t.pending = rest

/-- 10_state.md, section 7: placing a well-formed command's word as the next one to issue makes the next step run
exactly that command on the state as it stood. The waiting list and the reply are the model's (log entries 1 and 2). -/
def Obligations.IssuedEncodingRunsItsCommand : Prop :=
  ∀ (s : State) (i : Instr), i.wf = true →
    ∃ t, exec i s = .next t ∧ step (s.withFetchWord 16 (encode i).toNat) = .next (t.setReply (.err t.err))

/-- 10_state.md, section 7 (R24): the four transactions. A write changes the byte or the length it names; an issued word
returns the new ERR; a read returns the current value and changes nothing. What each returns is held in `reply`, and
each leaves the rest of the waiting list (both the model's, log entries 1 and 2). -/
def Obligations.HostTransactionsActAsListed : Prop :=
  ∀ (s : State) (rest : List Transaction),
    (∀ (i : Fin 64) (b : Byte), s.pending = .writeIbuf i b :: rest →
      ∃ t, step s = .next t ∧ t.ibuf.read i.val = b ∧ (∀ k, k ≠ i.val → t.ibuf.read k = s.ibuf.read k)
        ∧ t.pending = rest ∧ KeepsAllBut [.ibuf, .pending, .reply] s t)
    ∧ (∀ n : BitVec 8, s.pending = .setIlen n :: rest →
      ∃ t, step s = .next t ∧ t.ilen = n ∧ t.pending = rest ∧ KeepsAllBut [.ilen, .pending, .reply] s t)
    ∧ (∀ word : CommandWord, s.pending = .issue word :: rest →
      ∃ t, step s = .next t ∧ t.reply = .err t.err ∧ t.pending = rest
        ∧ ∀ i, decode word = .ok i → ∃ u, exec i s = .next u ∧ KeepsAllBut [.pending, .reply] u t)
    ∧ (∀ port : Port, s.pending = .read port :: rest →
      ∃ t, step s = .next t ∧ t.pending = rest ∧ KeepsAllBut [.pending, .reply] s t
        ∧ t.reply = (match port with
          | .a128 => .wide128 s.a128
          | .a256 => .wide256 s.a256
          | .r => .small s.r
          | .z => .flag s.z
          | .err => .err s.err
          | .ilen => .length s.ilen
          | .olen => .length s.olen
          | .ibuf i => .byte (s.ibuf.read i.val)
          | .obuf i => .byte (s.obuf.read i.val)))

/-- 10_state.md, section 4 (ILEN): a byte string presented as the spec says stands in IBUF, and the length test of a
command is exact for a string of any length. The waiting list that carries the transactions, and the reply, are the
model's (log entries 1 and 2). -/
def Obligations.PresentedInputIsTestedExactly : Prop :=
  ∀ (s : State) (bytes : List Byte),
    ∃ t, core.run (presentInput bytes).length (s.setPending (presentInput bytes)) = .next t
      ∧ (∀ i, i < min bytes.length 64 → t.ibuf.read i = bytes.getD i 0#8)
      ∧ (∀ i, min bytes.length 64 ≤ i → t.ibuf.read i = s.ibuf.read i)
      ∧ t.ilen.toNat = min bytes.length 255
      ∧ (∀ n, n ≤ 64 → (t.ilen.toNat = n ↔ bytes.length = n))
      ∧ t.pending = []
      ∧ KeepsAllBut [.ibuf, .ilen, .pending, .reply] s t

/-- 20_memory.md, section 6: the state after a list of transactions is the result of applying them one after another in
issue order, and what waits behind them has no part in it. The waiting list is the model's (log entry 1). -/
def Obligations.TransactionsApplyInIssueOrder : Prop :=
  ∀ (s : State) (ts later : List Transaction),
    core.run ts.length (s.setPending (ts ++ later)) = applyAll ts (s.setPending later)

/-- 70_reset_and_hazards.md, section 2, and log entry 3 (the model's choice of an idle step): with nothing waiting,
nothing changes. -/
def Obligations.IdleStepChangesNothing : Prop :=
  ∀ s : State, s.pending = [] → step s = .next s

/-- 70_reset_and_hazards.md, section 4: every transaction of the host completes, in every state. That an idle
engine takes a step at all is the model's choice (log entry 3). -/
def Obligations.EveryStepCompletes : Prop :=
  ∀ s : State, ∃ t, step s = .next t

/-! Reset and the invariant -/

/-- R26: the value of every piece of state after reset. -/
def Obligations.ResetLeavesTheTabledValues : Prop :=
  State.reset.a128 = 0#128 ∧ State.reset.a256 = 0#256 ∧ State.reset.r = 0#5 ∧ State.reset.z = false
  ∧ State.reset.err = 0#3 ∧ State.reset.ilen = 0#8 ∧ State.reset.olen = 0#8
  ∧ (∀ k, k < 64 → State.reset.ibuf.read k = 0x00#8) ∧ (∀ k, k < 78 → State.reset.obuf.read k = 0x00#8)

/-- 70_reset_and_hazards.md, section 1: a reset from outside gives every piece of the engine's state its reset value,
whatever came before; the host's own waiting list stays (the model's choice, log entry 7). -/
def Obligations.ResetFromOutsideForgetsEverything : Prop :=
  ∀ (s : State) (rest : List Transaction), s.pending = .reset :: rest →
    ∃ t, step s = .next t ∧ KeepsAllBut [.pending, .reply] State.reset t ∧ t.pending = rest

/-- 10_state.md, sections 4 and 5: the reset state meets the invariant. -/
def Obligations.ResetMeetsTheInvariant : Prop := State.reset.inv

/-- 10_state.md, sections 4 and 5: from every state that meets it, every step keeps the invariant: both buffers keep
their canonical form inside their sizes, ERR holds 0 to 5 and OLEN at most 78. -/
def Obligations.StepKeepsTheInvariant : Prop :=
  ∀ s t : State, s.inv → step s = .next t → t.inv

/-- 20_memory.md, section 4: writing a byte changes that byte only, and a buffer in canonical form keeps it. -/
def Obligations.ByteWriteChangesThatByteOnly : Prop :=
  ∀ (size : Nat) (m : Memory) (i : Nat) (b : Byte), m.wf size → i < size →
    (m.write i b).wf size ∧ (m.write i b).read i = b ∧ ∀ k, k ≠ i → (m.write i b).read k = m.read k

/-- 10_state.md, section 5, and the model's form of a buffer: two buffers in canonical form that read alike are equal
data. -/
def Obligations.CanonicalBuffersThatReadAlikeAreEqual : Prop :=
  ∀ (size : Nat) (m n : Memory), m.wf size → n.wf size → (∀ k, m.read k = n.read k) → m = n

/-! Rules over all commands -/

/-- 10_state.md, section 1 (the access table, writes): a command changes only what its row says it writes, ERR, and of
OBUF only the indices its row names. -/
def Obligations.CommandWritesOnlyItsTableRow : Prop :=
  ∀ (i : Instr) (s t : State), exec i s = .next t →
    KeepsAllBut (.err :: writesParts i) s t ∧ ∀ k, k ∉ writesObuf i s → t.obuf.read k = s.obuf.read k

/-- 10_state.md, section 1 (the access table, reads): two states that agree on what a command's row says it reads make
the command end alike and write alike; in particular no command reads Z, ERR, OLEN or OBUF. -/
def Obligations.CommandReadsOnlyItsTableRow : Prop :=
  ∀ (i : Instr) (s₁ s₂ t₁ t₂ : State),
    (∀ p ∈ readsRegisters i, p.agrees s₁ s₂) → (∀ k ∈ readsIbuf i, s₁.ibuf.read k = s₂.ibuf.read k) →
    exec i s₁ = .next t₁ → exec i s₂ = .next t₂ →
      t₁.err = t₂.err
      ∧ (t₁.err = 0#3 →
          (∀ p ∈ writesParts i, p ≠ .obuf → p.agrees t₁ t₂) ∧ ∀ k ∈ writesObuf i s₁, t₁.obuf.read k = t₂.obuf.read k)

/-- R105: ERR after a command is 0 exactly when the command has no cause to fail, and otherwise the code of a kind
whose cause holds; the codes are 1 to 5; an illegal word records 5. -/
def Obligations.ErrRecordsTheKindWhoseCauseHolds : Prop :=
  (∀ (i : Instr) (s : State), ∃ t, exec i s = .next t
      ∧ (t.err = 0#3 ↔ ∀ k, ¬ HasCause k i s)
      ∧ (t.err ≠ 0#3 → ∃ k, t.err = k.code ∧ HasCause k i s))
  ∧ ErrorKind.code .invalidFormat = 1#3 ∧ ErrorKind.code .invalidCharacter = 2#3
  ∧ ErrorKind.code .invalidLength = 3#3 ∧ ErrorKind.code .unimplemented = 4#3 ∧ ErrorKind.code .illegalCommand = 5#3
  ∧ ∀ (word : CommandWord) (s : State), IllegalWord word → ∃ t, hostIssue word s = .next t ∧ t.err = 5#3

/-- R106: a command a word can encode raises only the kinds its row lists, each listed kind in some state. -/
def Obligations.CommandRaisesOnlyItsListedKinds : Prop :=
  (∀ (i : Instr) (s t : State), i.wf = true → exec i s = .next t →
      t.err = 0#3 ∨ ∃ k ∈ canRaise i, t.err = k.code)
  ∧ (∀ (i : Instr) (k : ErrorKind), k ∈ canRaise i → ∃ s, Fails k i s)
  ∧ (∀ s, Fails .unimplemented .balenc s)
  ∧ ∀ (word : CommandWord) (s : State), IllegalWord word →
      ∃ t, hostIssue word s = .next t ∧ t.err = ErrorKind.code .illegalCommand

/-- R110: a word that leaves ERR other than 0, of any command or of none, leaves a kind's code there and makes no other
change to the engine. -/
def Obligations.FailedCommandChangesErrAlone : Prop :=
  ∀ (word : CommandWord) (s t : State), hostIssue word s = .next t → t.err ≠ 0#3 →
    (∃ k : ErrorKind, t.err = k.code) ∧ KeepsAllBut [.err, .reply] s t

/-- 60_exceptions.md, section 2 (return): after a failed command every command does exactly what it would have done
without it; nothing is sticky and nothing has to be cleared. -/
def Obligations.FailureLeavesNoTrace : Prop :=
  ∀ (i j : Instr) (s t : State), exec i s = .next t → t.err ≠ 0#3 → exec j t = exec j s

/-- R111: of the causes that apply to ACCDEC, InvalidFormat is reported over InvalidCharacter; an illegal word reports
IllegalCommand and BALENC Unimplemented whatever the input holds; no other command ever has two kinds to report. -/
def Obligations.FormatIsReportedOverCharacter : Prop :=
  (∀ s : State, HasCause .invalidFormat .accdec s → Fails .invalidFormat .accdec s)
  ∧ (∀ s : State, ¬ HasCause .invalidFormat .accdec s → HasCause .invalidCharacter .accdec s →
      Fails .invalidCharacter .accdec s)
  ∧ (∀ (word : CommandWord) (s : State), IllegalWord word → ∃ t, hostIssue word s = .next t ∧ t.err = 5#3)
  ∧ (∀ s : State, Fails .unimplemented .balenc s)
  ∧ ∀ (i : Instr) (s : State) (k l : ErrorKind), i ≠ .accdec → HasCause k i s → HasCause l i s → k = l

/-- 20_memory.md, section 4 (atomicity): a command that is not in place, issued twice with success, leaves the second
time what it left the first time. -/
def Obligations.RepeatedCommandGivesTheSameOutputs : Prop :=
  ∀ (i : Instr) (s t : State), inPlace i = false → exec i s = .next t → t.err = 0#3 →
    ∃ u, exec i t = .next u ∧ KeepsAllBut [] t u

/-! The fixed-width integer commands -/

/-- R61. -/
def Obligations.ZeroClearsTheSelectedAccumulator : Prop :=
  ∀ (w : Width) (s : State), decode (tableWord 0x0800 w 0) = .ok (.zero w)
    ∧ ∃ t, exec (.zero w) s = .next t ∧ (t.acc w).toNat = 0 ∧ t.err = 0#3 ∧ KeepsAllBut [accPart w, .err] s t

/-- R62. -/
def Obligations.LdbeLoadsExactlyWBitsBigEndian : Prop :=
  ∀ (w : Width) (s : State), decode (tableWord 0x1000 w 0) = .ok (.ldbe w)
    ∧ (s.ilen.toNat = w.bytes →
        ∃ t, exec (.ldbe w) s = .next t
          ∧ (t.acc w).toNat = ∑ i ∈ Finset.range w.bytes, (s.ibuf.read i).toNat * 256 ^ (w.bytes - 1 - i)
          ∧ t.err = 0#3 ∧ KeepsAllBut [accPart w, .err] s t)
    ∧ (s.ilen.toNat ≠ w.bytes → Fails .invalidLength (.ldbe w) s)

/-- R63, with its law that STBE gives back the bytes LDBE of the same width loaded. -/
def Obligations.StbeStoresExactlyWBitsBigEndian : Prop :=
  ∀ (w : Width) (s : State), decode (tableWord 0x1800 w 0) = .ok (.stbe w)
    ∧ ∃ t, exec (.stbe w) s = .next t
        ∧ (∀ i, i < w.bytes → (t.obuf.read i).toNat = (s.acc w).toNat / 256 ^ (w.bytes - 1 - i) % 256)
        ∧ (∀ k, w.bytes ≤ k → t.obuf.read k = s.obuf.read k)
        ∧ t.olen.toNat = w.bytes ∧ t.err = 0#3 ∧ KeepsAllBut [.obuf, .olen, .err] s t
        ∧ ∀ u v : State, u.ilen.toNat = w.bytes → exec (.ldbe w) u = .next v → s.acc w = v.acc w →
            ∀ i, i < w.bytes → t.obuf.read i = u.ibuf.read i

/-- R64. -/
def Obligations.ShlDiscardsTheBitsShiftedOut : Prop :=
  ∀ (w : Width) (n : Small) (s : State), decode (tableWord 0x2000 w n.toNat) = .ok (.shl w n)
    ∧ ∃ t, exec (.shl w n) s = .next t ∧ (t.acc w).toNat = (s.acc w).toNat * 2 ^ n.toNat % 2 ^ w.bits
        ∧ t.err = 0#3 ∧ KeepsAllBut [accPart w, .err] s t

/-- R65. -/
def Obligations.ShrBringsZerosInAtTheTop : Prop :=
  ∀ (w : Width) (n : Small) (s : State), decode (tableWord 0x2800 w n.toNat) = .ok (.shr w n)
    ∧ ∃ t, exec (.shr w n) s = .next t ∧ (t.acc w).toNat = (s.acc w).toNat / 2 ^ n.toNat
        ∧ t.err = 0#3 ∧ KeepsAllBut [accPart w, .err] s t

/-- R66: the OR, with its two corner cases: bits 5 and above never change, and low bits that were 0 become x. -/
def Obligations.OrliOrsIntoTheLowFiveBits : Prop :=
  ∀ (w : Width) (x : Small) (s : State), decode (tableWord 0x3000 w x.toNat) = .ok (.orli w x)
    ∧ ∃ t, exec (.orli w x) s = .next t ∧ (t.acc w).toNat = (s.acc w).toNat ||| x.toNat
        ∧ (t.acc w).toNat / 32 = (s.acc w).toNat / 32
        ∧ ((s.acc w).toNat % 32 = 0 → (t.acc w).toNat % 32 = x.toNat)
        ∧ t.err = 0#3 ∧ KeepsAllBut [accPart w, .err] s t

/-- R67. -/
def Obligations.OrlrOrsRegisterRIntoTheLowFiveBits : Prop :=
  ∀ (w : Width) (s : State), decode (tableWord 0x3800 w 0) = .ok (.orlr w)
    ∧ ∃ t, exec (.orlr w) s = .next t ∧ (t.acc w).toNat = (s.acc w).toNat ||| s.r.toNat
        ∧ (t.acc w).toNat / 32 = (s.acc w).toNat / 32
        ∧ ((s.acc w).toNat % 32 = 0 → (t.acc w).toNat % 32 = s.r.toNat)
        ∧ t.err = 0#3 ∧ KeepsAllBut [accPart w, .err] s t

/-- R68. -/
def Obligations.LowFiveReadsTheLowestFiveBits : Prop :=
  ∀ (w : Width) (s : State), decode (tableWord 0x4000 w 0) = .ok (.low5 w)
    ∧ ∃ t, exec (.low5 w) s = .next t ∧ t.r.toNat = (s.acc w).toNat % 32
        ∧ t.err = 0#3 ∧ KeepsAllBut [.r, .err] s t

/-- R69. -/
def Obligations.IszTestsTheWholeAccumulator : Prop :=
  ∀ (w : Width) (s : State), decode (tableWord 0x4800 w 0) = .ok (.isz w)
    ∧ ∃ t, exec (.isz w) s = .next t ∧ (t.z = true ↔ ∀ k, k < w.bits → (s.acc w).getLsbD k = false)
        ∧ t.err = 0#3 ∧ KeepsAllBut [.z, .err] s t

/-- R70: quotient and remainder of the old accumulator for d in 1..31; for d = 0 an illegal encoding, and
IllegalCommand with nothing changed. -/
def Obligations.DivsGivesQuotientAndRemainder : Prop :=
  ∀ (w : Width) (s : State),
    (∀ d : Small, d ≠ 0#5 → decode (tableWord 0x5000 w d.toNat) = .ok (.divs w d)
      ∧ ∃ t, exec (.divs w d) s = .next t
          ∧ (t.acc w).toNat = (s.acc w).toNat / d.toNat ∧ t.r.toNat = (s.acc w).toNat % d.toNat
          ∧ (t.acc w).toNat * d.toNat + t.r.toNat = (s.acc w).toNat ∧ t.r.toNat ≤ d.toNat - 1
          ∧ t.err = 0#3 ∧ KeepsAllBut [accPart w, .r, .err] s t)
    ∧ IllegalWord (tableWord 0x5000 w 0)
    ∧ (∃ t, hostIssue (tableWord 0x5000 w 0) s = .next t ∧ t.err = 5#3 ∧ KeepsAllBut [.err, .reply] s t)
    ∧ Fails .illegalCommand (.divs w 0#5) s

/-- 20_memory.md, section 2 (mixed-width views): the 16 bytes LDBE.128 loads are the high half of what LDBE.256 loads
from the same IBUF. -/
def Obligations.NarrowLoadIsTheHighHalfOfTheWideLoad : Prop :=
  ∀ s₁ s₂ : State, s₁.ilen.toNat = 16 → s₂.ilen.toNat = 32 → (∀ k, k < 16 → s₁.ibuf.read k = s₂.ibuf.read k) →
    ∃ t₁ t₂, exec (.ldbe .w128) s₁ = .next t₁ ∧ exec (.ldbe .w256) s₂ = .next t₂
      ∧ t₁.a128.toNat = t₂.a256.toNat / 2 ^ 128

/-! The byte orders -/

/-- 00_scope.md, section 5 (the pure value functions): big-endian load and store are inverse to each other on strings of
W/8 bytes and W-bit values, and so are the little-endian ones on 5 bytes and 40 bits. -/
def Obligations.LoadAndStoreAreInverse : Prop :=
  (∀ (w : Width) (bytes : List Byte), bytes.length = w.bytes →
      storeBigEndian w.bytes (loadBigEndian w.bits bytes) = bytes)
  ∧ (∀ (w : Width) (v : BitVec w.bits), loadBigEndian w.bits (storeBigEndian w.bytes v) = v)
  ∧ (∀ bytes : List Byte, bytes.length = 5 → storeLittleEndian 5 (loadLittleEndian 40 bytes) = bytes)
  ∧ ∀ v : BitVec 40, loadLittleEndian 40 (storeLittleEndian 5 v) = v

/-! The decimal renderer -/

/-- R80: OLEN is the number of divisions by ten until the quotient is 0, at least one; the i-th remainder stands
counted from the right end; A[W], R and Z are not changed. -/
def Obligations.DecRendersTheAccumulatorInDecimal : Prop :=
  ∀ (w : Width) (s : State), decode (tableWord 0x5800 w 0) = .ok (.dec w)
    ∧ ∃ t, exec (.dec w) s = .next t
        ∧ 1 ≤ t.olen.toNat ∧ (s.acc w).toNat / 10 ^ t.olen.toNat = 0
        ∧ (∀ j, 1 ≤ j → j < t.olen.toNat → (s.acc w).toNat / 10 ^ j ≠ 0)
        ∧ (∀ i, i < t.olen.toNat →
            (t.obuf.read (t.olen.toNat - 1 - i)).toNat = 0x30 + (s.acc w).toNat / 10 ^ i % 10)
        ∧ (∀ k, t.olen.toNat ≤ k → t.obuf.read k = s.obuf.read k)
        ∧ t.err = 0#3 ∧ KeepsAllBut [.obuf, .olen, .err] s t

/-- R81, (a) to (e); the number of division steps is the least k of at least 1 with v / 10^k = 0. -/
def Obligations.DecimalStringDenotesTheValue : Prop :=
  ∀ (w : Width) (s : State), ∃ t, exec (.dec w) s = .next t
    ∧ (∀ i, i < t.olen.toNat → 0x30 ≤ (t.obuf.read i).toNat ∧ (t.obuf.read i).toNat ≤ 0x39)
    ∧ ∑ i ∈ Finset.range t.olen.toNat, ((t.obuf.read i).toNat - 0x30) * 10 ^ (t.olen.toNat - 1 - i) = (s.acc w).toNat
    ∧ ((s.acc w).toNat = 0 → t.obuf.read 0 = 0x30#8 ∧ t.olen.toNat = 1)
    ∧ ((s.acc w).toNat ≠ 0 → t.obuf.read 0 ≠ 0x30#8 ∧ t.olen.toNat = Nat.log 10 (s.acc w).toNat + 1)
    ∧ (w = .w128 → t.olen.toNat ≤ 39) ∧ (w = .w256 → t.olen.toNat ≤ 78)
    ∧ (s.acc w).toNat / 10 ^ t.olen.toNat = 0
    ∧ (∀ j, 1 ≤ j → j < t.olen.toNat → (s.acc w).toNat / 10 ^ j ≠ 0)

/-- R82: rounds of DIVS.W 10 and ISZ.W give, round by round, DEC's bytes from the last to the first; Z becomes 1 in the
round of the first byte and not before; the rounds use up A[W], which DEC keeps. -/
def Obligations.DecEqualsRoundsOfDivideByTen : Prop :=
  ∀ (w : Width) (s : State), ∃ t, exec (.dec w) s = .next t ∧ t.acc w = s.acc w ∧ t.r = s.r ∧ t.z = s.z
    ∧ ∀ j, j < t.olen.toNat →
      ∃ u, execAll (List.replicate (j + 1) [.divs w 10#5, .isz w]).flatten s = .next u
        ∧ (t.obuf.read (t.olen.toNat - 1 - j)).toNat = 0x30 + u.r.toNat
        ∧ (u.z = true ↔ j + 1 = t.olen.toNat)
        ∧ (u.z = true → (u.acc w).toNat = 0)

/-! The digit tables and the digit commands -/

/-- R86: the 32 characters of the alphabet in their order, all distinct. -/
def Obligations.AlphaIsTheSpecsAlphabet : Prop :=
  allDigits.map (fun v => (alpha v).toNat) =
    ['1', '3', '4', '5', '6', '7', '8', '9', 'a', 'b', 'c', 'd', 'e', 'f', 'g', 'h',
     'i', 'j', 'k', 'm', 'n', 'o', 'p', 'q', 'r', 's', 't', 'u', 'w', 'x', 'y', 'z'].map Char.toNat
  ∧ ∀ u v : Small, alpha u = alpha v → u = v

/-- R87: INV is the inverse of ALPHA and is defined on exactly the bytes the rule lists. -/
def Obligations.InvIsDefinedOnTheAlphabetAlone : Prop :=
  (∀ (b : Byte) (v : Small), inv b = some v ↔ alpha v = b)
  ∧ ∀ b : Byte, inv b ≠ none ↔
      b = 0x31#8 ∨ (0x33#8 ≤ b ∧ b ≤ 0x39#8) ∨ (0x61#8 ≤ b ∧ b ≤ 0x6B#8) ∨ (0x6D#8 ≤ b ∧ b ≤ 0x75#8)
        ∨ (0x77#8 ≤ b ∧ b ≤ 0x7A#8)

/-- R88. -/
def Obligations.B32eWritesOneCharacter : Prop :=
  ∀ (p : Position) (s : State), decode (tableWord 0x6000 .w128 p.toNat) = .ok (.b32e p)
    ∧ ∃ t, exec (.b32e p) s = .next t ∧ t.obuf.read p.toNat = alpha s.r
        ∧ (∀ k, k ≠ p.toNat → t.obuf.read k = s.obuf.read k)
        ∧ t.err = 0#3 ∧ KeepsAllBut [.obuf, .err] s t

/-- R89: whatever ILEN is, an alphabet byte gives its digit and any other byte InvalidCharacter. -/
def Obligations.B32dReadsOneDigitOrFails : Prop :=
  ∀ (p : Position) (s : State), decode (tableWord 0x6800 .w128 p.toNat) = .ok (.b32d p)
    ∧ (∀ v : Small, s.ibuf.read p.toNat = alpha v →
        ∃ t, exec (.b32d p) s = .next t ∧ t.r = v ∧ t.err = 0#3 ∧ KeepsAllBut [.r, .err] s t)
    ∧ ((∀ v : Small, s.ibuf.read p.toNat ≠ alpha v) → Fails .invalidCharacter (.b32d p) s)

/-! The account codec -/

/-- R90: the 64 characters, each digit given by its place in the key or in the checksum integer. -/
def Obligations.AccencWritesTheAddress : Prop :=
  ∀ s : State, decode 0x8000#16 = .ok .accenc
    ∧ (s.ilen.toNat = 37 →
        ∃ t, exec .accenc s = .next t
          ∧ t.obuf.read 0 = 0x78#8 ∧ t.obuf.read 1 = 0x72#8 ∧ t.obuf.read 2 = 0x62#8 ∧ t.obuf.read 3 = 0x5F#8
          ∧ (∀ i, i < 52 → t.obuf.read (4 + i) = alpha (BitVec.ofNat 5
              ((∑ k ∈ Finset.range 32, (s.ibuf.read k).toNat * 256 ^ (31 - k)) / 32 ^ (51 - i))))
          ∧ (∀ j, j < 8 → t.obuf.read (56 + j) = alpha (BitVec.ofNat 5
              ((∑ k ∈ Finset.range 5, (s.ibuf.read (32 + k)).toNat * 256 ^ k) / 32 ^ (7 - j))))
          ∧ (∀ k, 64 ≤ k → t.obuf.read k = s.obuf.read k)
          ∧ t.olen = 64#8 ∧ t.err = 0#3 ∧ KeepsAllBut [.obuf, .olen, .err] s t)
    ∧ (s.ilen.toNat ≠ 37 → Fails .invalidLength .accenc s)

/-- 42_base32_account.md, section 4 (closed form (c), (e)): an encoded address begins with `xrb_`, its first key
character is `1` or `3`, and its 60 others are alphabet characters. -/
def Obligations.EncodedAddressIsWellFormed : Prop :=
  ∀ s : State, s.ilen.toNat = 37 →
    ∃ t, exec .accenc s = .next t ∧ t.olen.toNat = 64
      ∧ t.obuf.readRange 0 4 = [0x78#8, 0x72#8, 0x62#8, 0x5F#8]
      ∧ (t.obuf.read 4 = 0x31#8 ∨ t.obuf.read 4 = 0x33#8)
      ∧ ∀ k, 4 ≤ k → k ≤ 63 → ∃ v : Small, t.obuf.read k = alpha v

/-- 42_base32_account.md, section 4 (closed form (f)): LDBE.256 of the key and then 52 rounds of LOW5.256, B32E (4+i),
SHR.256 5 for i from 51 down to 0 leave the same key characters as ACCENC. -/
def Obligations.AccencKeyEqualsRoundsOfPrimitives : Prop :=
  ∀ s : State, s.ilen.toNat = 37 →
    ∃ t u, exec .accenc s = .next t
      ∧ execAll (.ldbe .w256 :: (List.range 52).reverse.flatMap
          (fun i => [.low5 .w256, .b32e (BitVec.ofNat 6 (4 + i)), .shr .w256 5#5])) (s.setIlen 32#8) = .next u
      ∧ ∀ i, i < 52 → u.obuf.read (4 + i) = t.obuf.read (4 + i)

/-- R92: the three failures, and for a valid address the key and the checksum its 60 digits spell, whatever the
checksum is. -/
def Obligations.AccdecReadsTheAddress : Prop :=
  ∀ s : State, decode 0x8800#16 = .ok .accdec
    ∧ (s.ilen.toNat ≠ 64 → Fails .invalidFormat .accdec s)
    ∧ (¬ PrefixIsXrb s → Fails .invalidFormat .accdec s)
    ∧ (s.ilen.toNat = 64 → PrefixIsXrb s → (∃ j, 4 ≤ j ∧ j ≤ 63 ∧ inv (s.ibuf.read j) = none) →
        Fails .invalidCharacter .accdec s)
    ∧ ∀ d : Nat → Small, s.ilen.toNat = 64 → PrefixIsXrb s → (∀ j, 4 ≤ j → j ≤ 63 → inv (s.ibuf.read j) = some (d j)) →
        ∃ t, exec .accdec s = .next t
          ∧ (∀ k, k < 32 → (t.obuf.read k).toNat =
              (∑ i ∈ Finset.range 52, (d (4 + i)).toNat * 32 ^ (51 - i)) % 2 ^ 256 / 256 ^ (31 - k) % 256)
          ∧ (∀ k, k < 5 → (t.obuf.read (32 + k)).toNat =
              (∑ j ∈ Finset.range 8, (d (56 + j)).toNat * 32 ^ (7 - j)) / 256 ^ k % 256)
          ∧ (∀ k, 37 ≤ k → t.obuf.read k = s.obuf.read k)
          ∧ t.olen = 37#8 ∧ t.err = 0#3 ∧ KeepsAllBut [.obuf, .olen, .err] s t

/-- 42_base32_account.md, section 5 (closed form (c), (d)): two addresses that differ only in the accepted prefix and in
the redundant bits 4 to 1 of the first key digit decode alike. -/
def Obligations.RedundantBitsAndPrefixDoNotMatter : Prop :=
  ∀ (s₁ s₂ : State) (d₁ d₂ : Small), s₁.ilen.toNat = 64 → s₂.ilen.toNat = 64 → PrefixIsXrb s₁ → PrefixIsXrb s₂ →
    inv (s₁.ibuf.read 4) = some d₁ → inv (s₂.ibuf.read 4) = some d₂ → d₁.toNat % 2 = d₂.toNat % 2 →
    (∀ j, 5 ≤ j → j ≤ 63 → s₁.ibuf.read j = s₂.ibuf.read j) →
      ∃ t₁ t₂, exec .accdec s₁ = .next t₁ ∧ exec .accdec s₂ = .next t₂ ∧ t₁.err = t₂.err
        ∧ (t₁.err = 0#3 → ∀ k, k < 37 → t₁.obuf.read k = t₂.obuf.read k)

/-- 42_base32_account.md, section 5 (closed form (e)): ZERO.256, then 52 rounds of B32D (4+i), SHL.256 5, ORLR.256 for i
from 0 to 51, then STBE.256 leave the same 32 bytes as an ACCDEC that succeeds. -/
def Obligations.AccdecKeyEqualsRoundsOfPrimitives : Prop :=
  ∀ s t : State, exec .accdec s = .next t → t.err = 0#3 →
    ∃ u, execAll ([.zero .w256] ++ (List.range 52).flatMap
        (fun i => [.b32d (BitVec.ofNat 6 (4 + i)), .shl .w256 5#5, .orlr .w256]) ++ [.stbe .w256]) s = .next u
      ∧ ∀ k, k < 32 → u.obuf.read k = t.obuf.read k

/-- 42_base32_account.md, section 6: for every key and checksum, presenting the 64 bytes ACCENC produced to ACCDEC gives
the 37 bytes back. -/
def Obligations.DecodingAnEncodedAddressGivesItBack : Prop :=
  ∀ s : State, s.ilen.toNat = 37 →
    ∃ t, exec .accenc s = .next t ∧ t.err = 0#3
      ∧ ∀ u : State, u.ilen.toNat = 64 → (∀ k, k < 64 → u.ibuf.read k = t.obuf.read k) →
          ∃ v, exec .accdec u = .next v ∧ v.err = 0#3 ∧ v.olen.toNat = 37
            ∧ ∀ k, k < 37 → v.obuf.read k = s.ibuf.read k

/-- 42_base32_account.md, section 6 (the converse): of the addresses ACCDEC accepts, encoding what it returned gives the
same address exactly for those with prefix `xrb_` and first key digit 0 or 1. -/
def Obligations.ReencodingReproducesCanonicalAddressesAlone : Prop :=
  ∀ s t u : State, exec .accdec s = .next t → t.err = 0#3 → u.ilen.toNat = 37 →
    (∀ k, k < 37 → u.ibuf.read k = t.obuf.read k) →
      ∃ v, exec .accenc u = .next v
        ∧ ((∀ k, k < 64 → v.obuf.read k = s.ibuf.read k) ↔
            s.ibuf.read 3 = 0x5F#8 ∧ (s.ibuf.read 4 = 0x31#8 ∨ s.ibuf.read 4 = 0x33#8))

/-- 42_base32_account.md, section 6 (checksum byte order): the last character carries bits 4 to 0 of checksum byte 0,
the first checksum character bits 7 to 3 of checksum byte 4. -/
def Obligations.ChecksumCharactersFollowLittleEndianOrder : Prop :=
  ∀ s : State, s.ilen.toNat = 37 →
    ∃ t, exec .accenc s = .next t
      ∧ t.obuf.read 63 = alpha ((s.ibuf.read 32).extractLsb' 0 5)
      ∧ t.obuf.read 56 = alpha ((s.ibuf.read 36).extractLsb' 3 5)

/-! The balance codec -/

/-- R100: BALDEC writes to OBUF and OLEN exactly what DEC.128 writes for the value of the 16 bytes, as LDBE.128 and then
DEC.128 would, and does not pass through A128. -/
def Obligations.BaldecRendersTheSixteenBytes : Prop :=
  ∀ s : State, decode 0x9000#16 = .ok .baldec
    ∧ (s.ilen.toNat = 16 →
        ∃ t u v, exec .baldec s = .next t
          ∧ exec (.ldbe .w128) s = .next u ∧ exec (.dec .w128) u = .next v
          ∧ u.a128.toNat = ∑ i ∈ Finset.range 16, (s.ibuf.read i).toNat * 256 ^ (15 - i)
          ∧ t.olen = v.olen ∧ (∀ k, t.obuf.read k = v.obuf.read k)
          ∧ 1 ≤ t.olen.toNat ∧ t.olen.toNat ≤ 39
          ∧ (∀ k, t.olen.toNat ≤ k → t.obuf.read k = s.obuf.read k)
          ∧ t.err = 0#3 ∧ KeepsAllBut [.obuf, .olen, .err] s t)
    ∧ (s.ilen.toNat ≠ 16 → Fails .invalidLength .baldec s)

/-- R101: always Unimplemented, in any state, with nothing else changed. -/
def Obligations.BalencAlwaysFailsAsUnimplemented : Prop :=
  decode 0x9800#16 = .ok .balenc
    ∧ ∀ s : State, ∃ t, exec .balenc s = .next t ∧ t.err = 4#3 ∧ KeepsAllBut [.err] s t
end

