-- ==== Sys2Proof/Laws/Memory.lean ====
section
/-! SUPPORT. What one read gives after each buffer operation, and that every operation keeps the canonical form. The
read laws need no canonical form. -/

namespace Sys2Proof.Machine

@[simp] theorem Memory.read_nil (i : Nat) : Memory.read [] i = Config.unlistedByte := rfl

@[simp] theorem Memory.read_cons (c : Host.Cell) (m : Memory) (i : Nat) :
    Memory.read (c :: m) i = if c.1 = i then c.2 else Memory.read m i := rfl

theorem Memory.read_erase (m : Memory) (i k : Nat) :
    (m.erase i).read k = if k = i then Config.unlistedByte else m.read k := by
  induction m with
  | nil => simp [Memory.erase]
  | cons c rest ih =>
    by_cases hc : c.1 = i
    · have : Memory.erase (c :: rest) i = Memory.erase rest i := by simp [Memory.erase, hc]
      rw [this, ih]
      grind [Memory.read_cons]
    · have : Memory.erase (c :: rest) i = c :: Memory.erase rest i := by simp [Memory.erase, hc]
      rw [this, Memory.read_cons, ih]
      grind [Memory.read_cons]

theorem Memory.read_place (m : Memory) (i : Nat) (b : Byte) (k : Nat) (h : ∀ c ∈ m, c.1 ≠ i) :
    (m.place i b).read k = if k = i then b else m.read k := by
  induction m with
  | nil => simp [Memory.place, eq_comm]
  | cons c rest ih =>
    have ih := ih (fun d hd => h d (List.mem_cons_of_mem _ hd))
    have hc := h c List.mem_cons_self
    unfold Memory.place
    split
    · simp [eq_comm]
    · simp only [Memory.read_cons, ih]
      grind

/-- A read after a write gives the byte written at the index written and the old byte at every other index. -/
theorem Memory.read_write (m : Memory) (i : Nat) (b : Byte) (k : Nat) :
    (m.write i b).read k = if k = i then b else m.read k := by
  have hmem : ∀ c ∈ m.erase i, c.1 ≠ i := by simp [Memory.erase]
  unfold Memory.write
  split
  · next hb => rw [Memory.read_erase, hb]
  · rw [Memory.read_place _ _ _ _ hmem, Memory.read_erase]
    grind

/-- A read after a range write gives the byte written inside the range and the old byte outside it. -/
theorem Memory.read_writeRange (m : Memory) (a : Nat) (bytes : List Byte) (k : Nat) :
    (m.writeRange a bytes).read k =
      if a ≤ k ∧ k < a + bytes.length then bytes.getD (k - a) 0#8 else m.read k := by
  induction bytes generalizing m a with
  | nil =>
    have : ¬(a ≤ k ∧ k < a) := by omega
    simp [Memory.writeRange, this]
  | cons b rest ih =>
    simp only [Memory.writeRange, ih, Memory.read_write, List.length_cons]
    by_cases hk : k = a
    · subst hk; simp
    · by_cases hr : a + 1 ≤ k ∧ k < a + 1 + rest.length
      · have hs : k - a = (k - (a + 1)) + 1 := by omega
        rw [if_pos hr, if_pos (by omega), hs, List.getD_cons_succ]
      · rw [if_neg hr, if_neg hk, if_neg (by omega)]

@[simp] theorem Memory.readRange_length (m : Memory) (a n : Nat) : (m.readRange a n).length = n := by
  simp [Memory.readRange]

@[simp] theorem Memory.readRange_getElem (m : Memory) (a n k : Nat) (h : k < (m.readRange a n).length) :
    (m.readRange a n)[k] = m.read (a + k) := by
  simp [Memory.readRange]

theorem Memory.wf_nil (size : Nat) : Memory.wf size [] := by simp [Memory.wf]

theorem Memory.wf_erase {size : Nat} {m : Memory} (h : m.wf size) (i : Nat) : (m.erase i).wf size :=
  ⟨h.1.filter _, fun c hc => h.2 c (List.mem_filter.mp hc).1⟩

theorem Memory.mem_place {m : Memory} {i : Nat} {b : Byte} {c : Host.Cell} :
    c ∈ m.place i b ↔ c = (i, b) ∨ c ∈ m := by
  induction m with
  | nil => simp [Memory.place]
  | cons d rest ih =>
    unfold Memory.place
    split
    · simp
    · simp only [List.mem_cons, ih]; tauto

theorem Memory.wf_place {size : Nat} {m : Memory} {i : Nat} {b : Byte} (h : m.wf size) (hi : i < size)
    (hb : b ≠ Config.unlistedByte) (hm : ∀ c ∈ m, c.1 ≠ i) : (m.place i b).wf size := by
  refine ⟨?_, fun c hc => ?_⟩
  · obtain ⟨hp, -⟩ := h
    induction m with
    | nil => simp [Memory.place]
    | cons d rest ih =>
      have hd := hm d List.mem_cons_self
      rw [List.pairwise_cons] at hp
      unfold Memory.place
      split
      · next hlt =>
        refine List.pairwise_cons.mpr ⟨fun c hc => ?_, List.pairwise_cons.mpr hp⟩
        rcases List.mem_cons.mp hc with rfl | hc
        · exact hlt
        · exact lt_trans hlt (hp.1 c hc)
      · refine List.pairwise_cons.mpr ⟨fun c hc => ?_, ih (fun c hc => hm c (List.mem_cons_of_mem _ hc)) hp.2⟩
        rcases Memory.mem_place.mp hc with rfl | hc
        · simp only; omega
        · exact hp.1 c hc
  · rcases Memory.mem_place.mp hc with rfl | hc
    · exact ⟨hi, hb⟩
    · exact h.2 c hc

/-- A write inside the buffer keeps the canonical form. -/
theorem Memory.wf_write {size : Nat} {m : Memory} (h : m.wf size) {i : Nat} (hi : i < size) (b : Byte) :
    (m.write i b).wf size := by
  unfold Memory.write
  split
  · exact Memory.wf_erase h i
  · next hb => exact Memory.wf_place (Memory.wf_erase h i) hi hb (by simp [Memory.erase])

/-- A range write inside the buffer keeps the canonical form. -/
theorem Memory.wf_writeRange {size : Nat} {m : Memory} (h : m.wf size) {a : Nat} (bytes : List Byte)
    (hr : a + bytes.length ≤ size) : (m.writeRange a bytes).wf size := by
  induction bytes generalizing m a with
  | nil => exact h
  | cons b rest ih =>
    simp only [List.length_cons] at hr
    exact ih (Memory.wf_write h (by omega) b) (by omega)

/-- Reset's buffers are in canonical form. -/
theorem State.reset_buffers_wf :
    State.reset.ibuf.wf Config.ibufSize ∧ State.reset.obuf.wf Config.obufSize := by decide

end Sys2Proof.Machine
end

