-- ==== Sys2Proof/Laws/State.lean ====
section
/-! SUPPORT. One lemma per field of the state per update of it, so that no proof unfolds a record update. Each is true by
rfl; the parentheses keep simp from using it as a definitional unfolding, since the kernel would then compare the whole
states field by field and evaluate a symbolic output string. -/

namespace Sys2Proof.Machine

/-! `State.setR` writes `r` and nothing else. -/

@[simp] theorem State.setR_a128 (s : State) (v : Small) : (s.setR v).a128 = s.a128 := (rfl)
@[simp] theorem State.setR_a256 (s : State) (v : Small) : (s.setR v).a256 = s.a256 := (rfl)
@[simp] theorem State.setR_r (s : State) (v : Small) : (s.setR v).r = v := (rfl)
@[simp] theorem State.setR_z (s : State) (v : Small) : (s.setR v).z = s.z := (rfl)
@[simp] theorem State.setR_err (s : State) (v : Small) : (s.setR v).err = s.err := (rfl)
@[simp] theorem State.setR_ilen (s : State) (v : Small) : (s.setR v).ilen = s.ilen := (rfl)
@[simp] theorem State.setR_olen (s : State) (v : Small) : (s.setR v).olen = s.olen := (rfl)
@[simp] theorem State.setR_ibuf (s : State) (v : Small) : (s.setR v).ibuf = s.ibuf := (rfl)
@[simp] theorem State.setR_obuf (s : State) (v : Small) : (s.setR v).obuf = s.obuf := (rfl)
@[simp] theorem State.setR_pending (s : State) (v : Small) : (s.setR v).pending = s.pending := (rfl)
@[simp] theorem State.setR_reply (s : State) (v : Small) : (s.setR v).reply = s.reply := (rfl)
@[simp] theorem State.setR_acc (s : State) (v : Small) (w : Width) : (s.setR v).acc w = s.acc w := by cases w <;> exact (rfl)

/-! `State.setZ` writes `z` and nothing else. -/

@[simp] theorem State.setZ_a128 (s : State) (v : Bool) : (s.setZ v).a128 = s.a128 := (rfl)
@[simp] theorem State.setZ_a256 (s : State) (v : Bool) : (s.setZ v).a256 = s.a256 := (rfl)
@[simp] theorem State.setZ_r (s : State) (v : Bool) : (s.setZ v).r = s.r := (rfl)
@[simp] theorem State.setZ_z (s : State) (v : Bool) : (s.setZ v).z = v := (rfl)
@[simp] theorem State.setZ_err (s : State) (v : Bool) : (s.setZ v).err = s.err := (rfl)
@[simp] theorem State.setZ_ilen (s : State) (v : Bool) : (s.setZ v).ilen = s.ilen := (rfl)
@[simp] theorem State.setZ_olen (s : State) (v : Bool) : (s.setZ v).olen = s.olen := (rfl)
@[simp] theorem State.setZ_ibuf (s : State) (v : Bool) : (s.setZ v).ibuf = s.ibuf := (rfl)
@[simp] theorem State.setZ_obuf (s : State) (v : Bool) : (s.setZ v).obuf = s.obuf := (rfl)
@[simp] theorem State.setZ_pending (s : State) (v : Bool) : (s.setZ v).pending = s.pending := (rfl)
@[simp] theorem State.setZ_reply (s : State) (v : Bool) : (s.setZ v).reply = s.reply := (rfl)
@[simp] theorem State.setZ_acc (s : State) (v : Bool) (w : Width) : (s.setZ v).acc w = s.acc w := by cases w <;> exact (rfl)

/-! `State.setErr` writes `err` and nothing else. -/

@[simp] theorem State.setErr_a128 (s : State) (v : BitVec 3) : (s.setErr v).a128 = s.a128 := (rfl)
@[simp] theorem State.setErr_a256 (s : State) (v : BitVec 3) : (s.setErr v).a256 = s.a256 := (rfl)
@[simp] theorem State.setErr_r (s : State) (v : BitVec 3) : (s.setErr v).r = s.r := (rfl)
@[simp] theorem State.setErr_z (s : State) (v : BitVec 3) : (s.setErr v).z = s.z := (rfl)
@[simp] theorem State.setErr_err (s : State) (v : BitVec 3) : (s.setErr v).err = v := (rfl)
@[simp] theorem State.setErr_ilen (s : State) (v : BitVec 3) : (s.setErr v).ilen = s.ilen := (rfl)
@[simp] theorem State.setErr_olen (s : State) (v : BitVec 3) : (s.setErr v).olen = s.olen := (rfl)
@[simp] theorem State.setErr_ibuf (s : State) (v : BitVec 3) : (s.setErr v).ibuf = s.ibuf := (rfl)
@[simp] theorem State.setErr_obuf (s : State) (v : BitVec 3) : (s.setErr v).obuf = s.obuf := (rfl)
@[simp] theorem State.setErr_pending (s : State) (v : BitVec 3) : (s.setErr v).pending = s.pending := (rfl)
@[simp] theorem State.setErr_reply (s : State) (v : BitVec 3) : (s.setErr v).reply = s.reply := (rfl)
@[simp] theorem State.setErr_acc (s : State) (v : BitVec 3) (w : Width) : (s.setErr v).acc w = s.acc w := by cases w <;> exact (rfl)

/-! `State.setIlen` writes `ilen` and nothing else. -/

@[simp] theorem State.setIlen_a128 (s : State) (v : BitVec 8) : (s.setIlen v).a128 = s.a128 := (rfl)
@[simp] theorem State.setIlen_a256 (s : State) (v : BitVec 8) : (s.setIlen v).a256 = s.a256 := (rfl)
@[simp] theorem State.setIlen_r (s : State) (v : BitVec 8) : (s.setIlen v).r = s.r := (rfl)
@[simp] theorem State.setIlen_z (s : State) (v : BitVec 8) : (s.setIlen v).z = s.z := (rfl)
@[simp] theorem State.setIlen_err (s : State) (v : BitVec 8) : (s.setIlen v).err = s.err := (rfl)
@[simp] theorem State.setIlen_ilen (s : State) (v : BitVec 8) : (s.setIlen v).ilen = v := (rfl)
@[simp] theorem State.setIlen_olen (s : State) (v : BitVec 8) : (s.setIlen v).olen = s.olen := (rfl)
@[simp] theorem State.setIlen_ibuf (s : State) (v : BitVec 8) : (s.setIlen v).ibuf = s.ibuf := (rfl)
@[simp] theorem State.setIlen_obuf (s : State) (v : BitVec 8) : (s.setIlen v).obuf = s.obuf := (rfl)
@[simp] theorem State.setIlen_pending (s : State) (v : BitVec 8) : (s.setIlen v).pending = s.pending := (rfl)
@[simp] theorem State.setIlen_reply (s : State) (v : BitVec 8) : (s.setIlen v).reply = s.reply := (rfl)
@[simp] theorem State.setIlen_acc (s : State) (v : BitVec 8) (w : Width) : (s.setIlen v).acc w = s.acc w := by cases w <;> exact (rfl)

/-! `State.setOlen` writes `olen` and nothing else. -/

@[simp] theorem State.setOlen_a128 (s : State) (v : BitVec 8) : (s.setOlen v).a128 = s.a128 := (rfl)
@[simp] theorem State.setOlen_a256 (s : State) (v : BitVec 8) : (s.setOlen v).a256 = s.a256 := (rfl)
@[simp] theorem State.setOlen_r (s : State) (v : BitVec 8) : (s.setOlen v).r = s.r := (rfl)
@[simp] theorem State.setOlen_z (s : State) (v : BitVec 8) : (s.setOlen v).z = s.z := (rfl)
@[simp] theorem State.setOlen_err (s : State) (v : BitVec 8) : (s.setOlen v).err = s.err := (rfl)
@[simp] theorem State.setOlen_ilen (s : State) (v : BitVec 8) : (s.setOlen v).ilen = s.ilen := (rfl)
@[simp] theorem State.setOlen_olen (s : State) (v : BitVec 8) : (s.setOlen v).olen = v := (rfl)
@[simp] theorem State.setOlen_ibuf (s : State) (v : BitVec 8) : (s.setOlen v).ibuf = s.ibuf := (rfl)
@[simp] theorem State.setOlen_obuf (s : State) (v : BitVec 8) : (s.setOlen v).obuf = s.obuf := (rfl)
@[simp] theorem State.setOlen_pending (s : State) (v : BitVec 8) : (s.setOlen v).pending = s.pending := (rfl)
@[simp] theorem State.setOlen_reply (s : State) (v : BitVec 8) : (s.setOlen v).reply = s.reply := (rfl)
@[simp] theorem State.setOlen_acc (s : State) (v : BitVec 8) (w : Width) : (s.setOlen v).acc w = s.acc w := by cases w <;> exact (rfl)

/-! `State.setIbuf` writes `ibuf` and nothing else. -/

@[simp] theorem State.setIbuf_a128 (s : State) (v : Memory) : (s.setIbuf v).a128 = s.a128 := (rfl)
@[simp] theorem State.setIbuf_a256 (s : State) (v : Memory) : (s.setIbuf v).a256 = s.a256 := (rfl)
@[simp] theorem State.setIbuf_r (s : State) (v : Memory) : (s.setIbuf v).r = s.r := (rfl)
@[simp] theorem State.setIbuf_z (s : State) (v : Memory) : (s.setIbuf v).z = s.z := (rfl)
@[simp] theorem State.setIbuf_err (s : State) (v : Memory) : (s.setIbuf v).err = s.err := (rfl)
@[simp] theorem State.setIbuf_ilen (s : State) (v : Memory) : (s.setIbuf v).ilen = s.ilen := (rfl)
@[simp] theorem State.setIbuf_olen (s : State) (v : Memory) : (s.setIbuf v).olen = s.olen := (rfl)
@[simp] theorem State.setIbuf_ibuf (s : State) (v : Memory) : (s.setIbuf v).ibuf = v := (rfl)
@[simp] theorem State.setIbuf_obuf (s : State) (v : Memory) : (s.setIbuf v).obuf = s.obuf := (rfl)
@[simp] theorem State.setIbuf_pending (s : State) (v : Memory) : (s.setIbuf v).pending = s.pending := (rfl)
@[simp] theorem State.setIbuf_reply (s : State) (v : Memory) : (s.setIbuf v).reply = s.reply := (rfl)
@[simp] theorem State.setIbuf_acc (s : State) (v : Memory) (w : Width) : (s.setIbuf v).acc w = s.acc w := by cases w <;> exact (rfl)

/-! `State.setObuf` writes `obuf` and nothing else. -/

@[simp] theorem State.setObuf_a128 (s : State) (v : Memory) : (s.setObuf v).a128 = s.a128 := (rfl)
@[simp] theorem State.setObuf_a256 (s : State) (v : Memory) : (s.setObuf v).a256 = s.a256 := (rfl)
@[simp] theorem State.setObuf_r (s : State) (v : Memory) : (s.setObuf v).r = s.r := (rfl)
@[simp] theorem State.setObuf_z (s : State) (v : Memory) : (s.setObuf v).z = s.z := (rfl)
@[simp] theorem State.setObuf_err (s : State) (v : Memory) : (s.setObuf v).err = s.err := (rfl)
@[simp] theorem State.setObuf_ilen (s : State) (v : Memory) : (s.setObuf v).ilen = s.ilen := (rfl)
@[simp] theorem State.setObuf_olen (s : State) (v : Memory) : (s.setObuf v).olen = s.olen := (rfl)
@[simp] theorem State.setObuf_ibuf (s : State) (v : Memory) : (s.setObuf v).ibuf = s.ibuf := (rfl)
@[simp] theorem State.setObuf_obuf (s : State) (v : Memory) : (s.setObuf v).obuf = v := (rfl)
@[simp] theorem State.setObuf_pending (s : State) (v : Memory) : (s.setObuf v).pending = s.pending := (rfl)
@[simp] theorem State.setObuf_reply (s : State) (v : Memory) : (s.setObuf v).reply = s.reply := (rfl)
@[simp] theorem State.setObuf_acc (s : State) (v : Memory) (w : Width) : (s.setObuf v).acc w = s.acc w := by cases w <;> exact (rfl)

/-! `State.setPending` writes `pending` and nothing else. -/

@[simp] theorem State.setPending_a128 (s : State) (v : List Transaction) : (s.setPending v).a128 = s.a128 := (rfl)
@[simp] theorem State.setPending_a256 (s : State) (v : List Transaction) : (s.setPending v).a256 = s.a256 := (rfl)
@[simp] theorem State.setPending_r (s : State) (v : List Transaction) : (s.setPending v).r = s.r := (rfl)
@[simp] theorem State.setPending_z (s : State) (v : List Transaction) : (s.setPending v).z = s.z := (rfl)
@[simp] theorem State.setPending_err (s : State) (v : List Transaction) : (s.setPending v).err = s.err := (rfl)
@[simp] theorem State.setPending_ilen (s : State) (v : List Transaction) : (s.setPending v).ilen = s.ilen := (rfl)
@[simp] theorem State.setPending_olen (s : State) (v : List Transaction) : (s.setPending v).olen = s.olen := (rfl)
@[simp] theorem State.setPending_ibuf (s : State) (v : List Transaction) : (s.setPending v).ibuf = s.ibuf := (rfl)
@[simp] theorem State.setPending_obuf (s : State) (v : List Transaction) : (s.setPending v).obuf = s.obuf := (rfl)
@[simp] theorem State.setPending_pending (s : State) (v : List Transaction) : (s.setPending v).pending = v := (rfl)
@[simp] theorem State.setPending_reply (s : State) (v : List Transaction) : (s.setPending v).reply = s.reply := (rfl)
@[simp] theorem State.setPending_acc (s : State) (v : List Transaction) (w : Width) : (s.setPending v).acc w = s.acc w := by cases w <;> exact (rfl)

/-! `State.setReply` writes `reply` and nothing else. -/

@[simp] theorem State.setReply_a128 (s : State) (v : Reply) : (s.setReply v).a128 = s.a128 := (rfl)
@[simp] theorem State.setReply_a256 (s : State) (v : Reply) : (s.setReply v).a256 = s.a256 := (rfl)
@[simp] theorem State.setReply_r (s : State) (v : Reply) : (s.setReply v).r = s.r := (rfl)
@[simp] theorem State.setReply_z (s : State) (v : Reply) : (s.setReply v).z = s.z := (rfl)
@[simp] theorem State.setReply_err (s : State) (v : Reply) : (s.setReply v).err = s.err := (rfl)
@[simp] theorem State.setReply_ilen (s : State) (v : Reply) : (s.setReply v).ilen = s.ilen := (rfl)
@[simp] theorem State.setReply_olen (s : State) (v : Reply) : (s.setReply v).olen = s.olen := (rfl)
@[simp] theorem State.setReply_ibuf (s : State) (v : Reply) : (s.setReply v).ibuf = s.ibuf := (rfl)
@[simp] theorem State.setReply_obuf (s : State) (v : Reply) : (s.setReply v).obuf = s.obuf := (rfl)
@[simp] theorem State.setReply_pending (s : State) (v : Reply) : (s.setReply v).pending = s.pending := (rfl)
@[simp] theorem State.setReply_reply (s : State) (v : Reply) : (s.setReply v).reply = v := (rfl)
@[simp] theorem State.setReply_acc (s : State) (v : Reply) (w : Width) : (s.setReply v).acc w = s.acc w := by cases w <;> exact (rfl)

/-! `State.setAcc` writes the selected accumulator and nothing else. -/

@[simp] theorem State.setAcc_acc (s : State) (w : Width) (v : BitVec w.bits) : (s.setAcc w v).acc w = v := by cases w <;> exact (rfl)
@[simp] theorem State.setAcc_w128_a128 (s : State) (v : BitVec 128) : (s.setAcc .w128 v).a128 = v := (rfl)
@[simp] theorem State.setAcc_w128_a256 (s : State) (v : BitVec 128) : (s.setAcc .w128 v).a256 = s.a256 := (rfl)
@[simp] theorem State.setAcc_w256_a128 (s : State) (v : BitVec 256) : (s.setAcc .w256 v).a128 = s.a128 := (rfl)
@[simp] theorem State.setAcc_w256_a256 (s : State) (v : BitVec 256) : (s.setAcc .w256 v).a256 = v := (rfl)
@[simp] theorem State.acc_w128 (s : State) : s.acc .w128 = s.a128 := (rfl)
@[simp] theorem State.acc_w256 (s : State) : s.acc .w256 = s.a256 := (rfl)
@[simp] theorem State.setAcc_r (s : State) (w : Width) (v : BitVec w.bits) : (s.setAcc w v).r = s.r := by cases w <;> exact (rfl)
@[simp] theorem State.setAcc_z (s : State) (w : Width) (v : BitVec w.bits) : (s.setAcc w v).z = s.z := by cases w <;> exact (rfl)
@[simp] theorem State.setAcc_err (s : State) (w : Width) (v : BitVec w.bits) : (s.setAcc w v).err = s.err := by cases w <;> exact (rfl)
@[simp] theorem State.setAcc_ilen (s : State) (w : Width) (v : BitVec w.bits) : (s.setAcc w v).ilen = s.ilen := by cases w <;> exact (rfl)
@[simp] theorem State.setAcc_olen (s : State) (w : Width) (v : BitVec w.bits) : (s.setAcc w v).olen = s.olen := by cases w <;> exact (rfl)
@[simp] theorem State.setAcc_ibuf (s : State) (w : Width) (v : BitVec w.bits) : (s.setAcc w v).ibuf = s.ibuf := by cases w <;> exact (rfl)
@[simp] theorem State.setAcc_obuf (s : State) (w : Width) (v : BitVec w.bits) : (s.setAcc w v).obuf = s.obuf := by cases w <;> exact (rfl)
@[simp] theorem State.setAcc_pending (s : State) (w : Width) (v : BitVec w.bits) : (s.setAcc w v).pending = s.pending := by cases w <;> exact (rfl)
@[simp] theorem State.setAcc_reply (s : State) (w : Width) (v : BitVec w.bits) : (s.setAcc w v).reply = s.reply := by cases w <;> exact (rfl)

/-! `State.emit` writes OBUF and OLEN and nothing else. -/

@[simp] theorem State.emit_a128 (s : State) (bytes : List Byte) : (s.emit bytes).a128 = s.a128 := (rfl)
@[simp] theorem State.emit_a256 (s : State) (bytes : List Byte) : (s.emit bytes).a256 = s.a256 := (rfl)
@[simp] theorem State.emit_r (s : State) (bytes : List Byte) : (s.emit bytes).r = s.r := (rfl)
@[simp] theorem State.emit_z (s : State) (bytes : List Byte) : (s.emit bytes).z = s.z := (rfl)
@[simp] theorem State.emit_err (s : State) (bytes : List Byte) : (s.emit bytes).err = s.err := (rfl)
@[simp] theorem State.emit_ilen (s : State) (bytes : List Byte) : (s.emit bytes).ilen = s.ilen := (rfl)
@[simp] theorem State.emit_olen (s : State) (bytes : List Byte) : (s.emit bytes).olen = BitVec.ofNat 8 bytes.length := (rfl)
@[simp] theorem State.emit_ibuf (s : State) (bytes : List Byte) : (s.emit bytes).ibuf = s.ibuf := (rfl)
@[simp] theorem State.emit_obuf (s : State) (bytes : List Byte) : (s.emit bytes).obuf = s.obuf.writeRange 0 bytes := (rfl)
@[simp] theorem State.emit_pending (s : State) (bytes : List Byte) : (s.emit bytes).pending = s.pending := (rfl)
@[simp] theorem State.emit_reply (s : State) (bytes : List Byte) : (s.emit bytes).reply = s.reply := (rfl)
@[simp] theorem State.emit_acc (s : State) (bytes : List Byte) (w : Width) : (s.emit bytes).acc w = s.acc w := by cases w <;> exact (rfl)

end Sys2Proof.Machine
end

