-- ==== Sys2Proof/Laws/Values.lean ====
section
/-! SUPPORT. The pure value functions on naturals, one lemma per function, and the lengths of the byte strings they
make. -/

namespace Sys2Proof.Machine

@[simp] theorem toNat_shiftLeft {W : Nat} (v : BitVec W) (n : Small) :
    (shiftLeft v n).toNat = v.toNat * 2 ^ n.toNat % 2 ^ W := by simp [shiftLeft]

@[simp] theorem toNat_shiftRight {W : Nat} (v : BitVec W) (n : Small) :
    (shiftRight v n).toNat = v.toNat / 2 ^ n.toNat := by
  simp only [shiftRight, BitVec.toNat_ofNat]
  exact Nat.mod_eq_of_lt (lt_of_le_of_lt (Nat.div_le_self _ _) v.isLt)

theorem toNat_orLow {W : Nat} (hW : 5 ≤ W) (v : BitVec W) (x : Small) :
    (orLow v x).toNat = v.toNat ||| x.toNat := by
  simp only [orLow, BitVec.toNat_or, BitVec.toNat_setWidth]
  rw [Nat.mod_eq_of_lt (lt_of_lt_of_le x.isLt (Nat.pow_le_pow_right (by omega) hW))]

@[simp] theorem toNat_lowestFive {W : Nat} (v : BitVec W) : (lowestFive v).toNat = v.toNat % 32 := by
  simp [lowestFive]

@[simp] theorem toNat_divSmall_fst {W : Nat} (v : BitVec W) (d : Small) :
    (divSmall v d).1.toNat = v.toNat / d.toNat := by
  simp only [divSmall, BitVec.toNat_ofNat]
  exact Nat.mod_eq_of_lt (lt_of_le_of_lt (Nat.div_le_self _ _) v.isLt)

theorem toNat_divSmall_snd {W : Nat} (v : BitVec W) (d : Small) (hd : d ≠ 0#5) :
    (divSmall v d).2.toNat = v.toNat % d.toNat := by
  have hpos : 0 < d.toNat := by
    rcases Nat.eq_zero_or_pos d.toNat with h | h
    · exact absurd (BitVec.eq_of_toNat_eq h) hd
    · exact h
  simp only [divSmall, BitVec.toNat_ofNat]
  exact Nat.mod_eq_of_lt (lt_trans (Nat.mod_lt _ hpos) d.isLt)

@[simp] theorem isZero_iff {W : Nat} (v : BitVec W) : isZero v = true ↔ v.toNat = 0 := by simp [isZero]

theorem bigEndianValue_lt (bytes : List Byte) : bigEndianValue bytes < 256 ^ bytes.length := by
  induction bytes with
  | nil => simp [bigEndianValue]
  | cons b rest ih =>
    have hb := b.isLt
    simp only [bigEndianValue, List.length_cons, pow_succ]
    nlinarith

theorem littleEndianValue_lt (bytes : List Byte) : littleEndianValue bytes < 256 ^ bytes.length := by
  induction bytes with
  | nil => simp [littleEndianValue]
  | cons b rest ih =>
    have hb := b.isLt
    simp only [littleEndianValue, List.length_cons, pow_succ]
    omega

theorem toNat_loadBigEndian {W : Nat} (bytes : List Byte) (h : 256 ^ bytes.length ≤ 2 ^ W) :
    (loadBigEndian W bytes).toNat = bigEndianValue bytes := by
  simp only [loadBigEndian, BitVec.toNat_ofNat]
  exact Nat.mod_eq_of_lt (lt_of_lt_of_le (bigEndianValue_lt bytes) h)

theorem toNat_loadLittleEndian {W : Nat} (bytes : List Byte) (h : 256 ^ bytes.length ≤ 2 ^ W) :
    (loadLittleEndian W bytes).toNat = littleEndianValue bytes := by
  simp only [loadLittleEndian, BitVec.toNat_ofNat]
  exact Nat.mod_eq_of_lt (lt_of_lt_of_le (littleEndianValue_lt bytes) h)

@[simp] theorem storeBigEndian_length {W : Nat} (count : Nat) (v : BitVec W) :
    (storeBigEndian count v).length = count := by simp [storeBigEndian]

@[simp] theorem storeLittleEndian_length {W : Nat} (count : Nat) (v : BitVec W) :
    (storeLittleEndian count v).length = count := by simp [storeLittleEndian]

@[simp] theorem digitsLowFirst_length {W : Nat} (count : Nat) (v : BitVec W) :
    (digitsLowFirst count v).length = count := by
  induction count generalizing v with
  | zero => rfl
  | succ k ih => simp [digitsLowFirst, ih]

@[simp] theorem digitString_length {W : Nat} (count : Nat) (v : BitVec W) :
    (digitString count v).length = count := by simp [digitString]

@[simp] theorem encodeAddress_length (key : BitVec 256) (checksum : BitVec 40) :
    (encodeAddress key checksum).length = 64 := by simp [encodeAddress, addressPrefix]

@[simp] theorem decodeAddressDigits_length (ds : List Small) : (decodeAddressDigits ds).length = 37 := by
  simp [decodeAddressDigits]

theorem decimalLoop_length_le {W : Nat} (steps : Nat) (v : BitVec W) : (decimalLoop steps v).length ≤ steps := by
  induction steps generalizing v with
  | zero => simp [decimalLoop]
  | succ k ih =>
    simp only [decimalLoop, List.length_cons]
    split
    · simp
    · have := ih (divSmall v 10#5).1
      omega

theorem decimalString_length_le (w : Width) (v : BitVec w.bits) :
    (decimalString w v).length ≤ maxDecimalDigits w := by
  simpa [decimalString] using decimalLoop_length_le (maxDecimalDigits w) v

end Sys2Proof.Machine
end

