-- ==== Sys2Proof/Laws/Frame.lean ====
section
/-! SUPPORT. What each shared operation changes, said once: the frame of every update, how frames compose, how a command
can end, and that no command touches what the host owns. -/

namespace Sys2Proof.Machine

theorem Part.agrees_refl (p : Part) (s : State) : p.agrees s s := by cases p <;> simp [Part.agrees]

theorem Part.agrees_trans {p : Part} {s t u : State} (h : p.agrees s t) (k : p.agrees t u) : p.agrees s u := by
  cases p <;> simp_all [Part.agrees]

theorem keepsAllBut_refl (changed : List Part) (s : State) : KeepsAllBut changed s s := fun p _ => p.agrees_refl s

theorem KeepsAllBut.trans {xs : List Part} {s t u : State} (h : KeepsAllBut xs s t) (k : KeepsAllBut xs t u) :
    KeepsAllBut xs s u := fun p hp => Part.agrees_trans (h p hp) (k p hp)

theorem KeepsAllBut.mono {xs ys : List Part} {s t : State} (h : KeepsAllBut xs s t) (sub : xs ⊆ ys) :
    KeepsAllBut ys s t := fun p hp => h p (fun hx => hp (sub hx))

/-- An update of listed pieces is a frame for any list that holds them. -/
theorem keepsAllBut_of_cases {xs : List Part} {s t : State}
    (h : ∀ p, p ∈ xs ∨ p.agrees s t) : KeepsAllBut xs s t := fun p hp => (h p).resolve_left hp

theorem keepsAllBut_setErr (s : State) (e : BitVec 3) : KeepsAllBut [.err] s (s.setErr e) :=
  keepsAllBut_of_cases fun p => by cases p <;> simp [Part.agrees]

theorem keepsAllBut_setR (s : State) (v : Small) : KeepsAllBut [.r] s (s.setR v) :=
  keepsAllBut_of_cases fun p => by cases p <;> simp [Part.agrees]

theorem keepsAllBut_setZ (s : State) (b : Bool) : KeepsAllBut [.z] s (s.setZ b) :=
  keepsAllBut_of_cases fun p => by cases p <;> simp [Part.agrees]

theorem keepsAllBut_setAcc (s : State) (w : Width) (v : BitVec w.bits) :
    KeepsAllBut [accPart w] s (s.setAcc w v) :=
  keepsAllBut_of_cases fun p => by cases w <;> cases p <;> simp [Part.agrees, accPart]

theorem keepsAllBut_setIlen (s : State) (n : BitVec 8) : KeepsAllBut [.ilen] s (s.setIlen n) :=
  keepsAllBut_of_cases fun p => by cases p <;> simp [Part.agrees]

theorem keepsAllBut_setIbuf (s : State) (m : Memory) : KeepsAllBut [.ibuf] s (s.setIbuf m) :=
  keepsAllBut_of_cases fun p => by cases p <;> simp [Part.agrees]

theorem keepsAllBut_setObuf (s : State) (m : Memory) : KeepsAllBut [.obuf] s (s.setObuf m) :=
  keepsAllBut_of_cases fun p => by cases p <;> simp [Part.agrees]

theorem keepsAllBut_setPending (s : State) (ts : List Transaction) : KeepsAllBut [.pending] s (s.setPending ts) :=
  keepsAllBut_of_cases fun p => by cases p <;> simp [Part.agrees]

theorem keepsAllBut_setReply (s : State) (v : Reply) : KeepsAllBut [.reply] s (s.setReply v) :=
  keepsAllBut_of_cases fun p => by cases p <;> simp [Part.agrees]

theorem keepsAllBut_emit (s : State) (bytes : List Byte) : KeepsAllBut [.obuf, .olen] s (s.emit bytes) :=
  keepsAllBut_of_cases fun p => by cases p <;> simp [Part.agrees]

/-- What `State.emit` leaves in OBUF. -/
theorem read_emit (s : State) (bytes : List Byte) (k : Nat) :
    (s.emit bytes).obuf.read k = if k < bytes.length then bytes.getD k 0#8 else s.obuf.read k := by
  simp [Memory.read_writeRange]

/-- `raise` answers a next state: the old one with the kind's code in ERR. -/
theorem raise_eq (k : ErrorKind) (s : State) : raise k s = .next (s.setErr k.code) := rfl

/-- `complete` answers a next state: the given one with 0 in ERR. -/
theorem complete_eq (s : State) : complete s = .next (s.setErr 0#3) := rfl

theorem ErrorKind.code_ne_zero (k : ErrorKind) : k.code ≠ 0#3 := by cases k <;> decide

/-- How a command can end: it raises a kind and leaves the state it was issued in, or it completes from a state that
holds the same input and the same host fields. -/
theorem exec_ends (i : Instr) (s : State) :
    (∃ k, exec i s = raise k s)
    ∨ ∃ u, exec i s = complete u ∧ u.ibuf = s.ibuf ∧ u.ilen = s.ilen ∧ u.pending = s.pending ∧ u.reply = s.reply := by
  cases i <;> simp only [exec]
  case ldbe w =>
    rw [execLdbe]
    split
    · exact .inl ⟨_, rfl⟩
    · exact .inr ⟨_, rfl, by simp⟩
  case divs w d =>
    rw [execDivs]
    split
    · exact .inl ⟨_, rfl⟩
    · exact .inr ⟨_, rfl, by simp⟩
  case b32d p =>
    rw [execB32d]
    split
    · exact .inl ⟨_, rfl⟩
    · exact .inr ⟨_, rfl, by simp⟩
  case accenc =>
    rw [execAccenc]
    split
    · exact .inl ⟨_, rfl⟩
    · exact .inr ⟨_, rfl, by simp⟩
  case accdec =>
    rw [execAccdec]
    split
    · exact .inl ⟨_, rfl⟩
    · split
      · exact .inl ⟨_, rfl⟩
      · split
        · exact .inl ⟨_, rfl⟩
        · exact .inr ⟨_, rfl, by simp⟩
  case baldec =>
    rw [execBaldec]
    split
    · exact .inl ⟨_, rfl⟩
    · exact .inr ⟨_, rfl, by simp⟩
  case balenc => exact .inl ⟨_, rfl⟩
  all_goals exact .inr ⟨_, rfl, by simp⟩

theorem accPart_ne_ibuf (w : Width) : accPart w ≠ .ibuf := by cases w <;> decide

theorem accPart_ne_obuf (w : Width) : accPart w ≠ .obuf := by cases w <;> decide

/-- A step with a word at the head of the list is HostIssue of it on the rest. -/
theorem step_of_issue (s : State) (word : CommandWord) (rest : List Transaction)
    (h : s.pending = .issue word :: rest) : step s = hostIssue word (s.setPending rest) := by
  simp [step, advance, h, applyTransaction]

theorem prefixAccepted_iff (s : State) : prefixAccepted (s.ibuf.readRange 0 4) = true ↔ PrefixIsXrb s := by
  have : s.ibuf.readRange 0 4 = [s.ibuf.read 0, s.ibuf.read 1, s.ibuf.read 2, s.ibuf.read 3] := rfl
  rw [this]
  simp only [prefixAccepted, addressPrefix, PrefixIsXrb, Bool.or_eq_true, beq_iff_eq, List.cons.injEq, and_true]
  tauto

end Sys2Proof.Machine
end

