-- ==== Sys2Proof/Laws/PerInstr.lean ====
section
/-! SUPPORT. Per instruction: the word of every command meets its row of spec/opcode_table.json, mask and match. -/

namespace Sys2Proof.Laws

/-- The mask of a command's row. -/
def tableMask : Instr → CommandWord
  | .zero _ => 0xFBFF#16
  | .ldbe _ => 0xFBFF#16
  | .stbe _ => 0xFBFF#16
  | .shl _ _ => 0xFBE0#16
  | .shr _ _ => 0xFBE0#16
  | .orli _ _ => 0xFBE0#16
  | .orlr _ => 0xFBFF#16
  | .low5 _ => 0xFBFF#16
  | .isz _ => 0xFBFF#16
  | .divs _ _ => 0xFBE0#16
  | .dec _ => 0xFBFF#16
  | .b32e _ => 0xFFC0#16
  | .b32d _ => 0xFFC0#16
  | .accenc => 0xFFFF#16
  | .accdec => 0xFFFF#16
  | .baldec => 0xFFFF#16
  | .balenc => 0xFFFF#16

/-- The match of a command's row. -/
def tableMatch : Instr → CommandWord
  | .zero _ => 0x0800#16
  | .ldbe _ => 0x1000#16
  | .stbe _ => 0x1800#16
  | .shl _ _ => 0x2000#16
  | .shr _ _ => 0x2800#16
  | .orli _ _ => 0x3000#16
  | .orlr _ => 0x3800#16
  | .low5 _ => 0x4000#16
  | .isz _ => 0x4800#16
  | .divs _ _ => 0x5000#16
  | .dec _ => 0x5800#16
  | .b32e _ => 0x6000#16
  | .b32d _ => 0x6800#16
  | .accenc => 0x8000#16
  | .accdec => 0x8800#16
  | .baldec => 0x9000#16
  | .balenc => 0x9800#16

namespace TableRow

/-- The word of the command, masked by its row's mask, is its row's match. -/
def Statement (i : Instr) : Prop := encode i &&& tableMask i = tableMatch i

theorem zero (w : Width) : Statement (.zero w) := by unfold Statement; cases w <;> decide

theorem ldbe (w : Width) : Statement (.ldbe w) := by unfold Statement; cases w <;> decide

theorem stbe (w : Width) : Statement (.stbe w) := by unfold Statement; cases w <;> decide

theorem shl (w : Width) (n : Small) : Statement (.shl w n) := by
  unfold Statement; cases w <;> revert n <;> decide +kernel

theorem shr (w : Width) (n : Small) : Statement (.shr w n) := by
  unfold Statement; cases w <;> revert n <;> decide +kernel

theorem orli (w : Width) (n : Small) : Statement (.orli w n) := by
  unfold Statement; cases w <;> revert n <;> decide +kernel

theorem orlr (w : Width) : Statement (.orlr w) := by unfold Statement; cases w <;> decide

theorem low5 (w : Width) : Statement (.low5 w) := by unfold Statement; cases w <;> decide

theorem isz (w : Width) : Statement (.isz w) := by unfold Statement; cases w <;> decide

theorem divs (w : Width) (n : Small) : Statement (.divs w n) := by
  unfold Statement; cases w <;> revert n <;> decide +kernel

theorem dec (w : Width) : Statement (.dec w) := by unfold Statement; cases w <;> decide

theorem b32e (p : Position) : Statement (.b32e p) := by
  unfold Statement; revert p; decide +kernel

theorem b32d (p : Position) : Statement (.b32d p) := by
  unfold Statement; revert p; decide +kernel

theorem accenc : Statement .accenc := by unfold Statement; decide

theorem accdec : Statement .accdec := by unfold Statement; decide

theorem baldec : Statement .baldec := by unfold Statement; decide

theorem balenc : Statement .balenc := by unfold Statement; decide

end TableRow

end Sys2Proof.Laws
end

