-- ==== Sys2Proof/Laws/Strings.lean ====
section
/-! SUPPORT. What each byte-string and digit-string function computes, place by place. -/

namespace Sys2Proof.Machine

/-- The big-endian value of a buffer range as the sum of 00_scope.md R8. -/
theorem bigEndianValue_readRange (m : Memory) (a n) : bigEndianValue (m.readRange a n) = ∑ i ∈ Finset.range n, (m.read (a+i)).toNat * 256 ^ (n - 1 - i) := by
  induction n generalizing a with
  | zero => simp [Memory.readRange, bigEndianValue]
  | succ n ih =>
    have : m.readRange a (n+1) = m.read a :: m.readRange (a+1) n := by
      simp only [Memory.readRange, List.range_succ_eq_map, List.map_cons, List.map_map, Nat.add_zero]
      congr 1
      apply List.map_congr_left
      intro k _; simp only [Function.comp]; congr 1; omega
    rw [this, bigEndianValue, ih, Finset.sum_range_succ', Memory.readRange_length]
    rw [add_comm]
    congr 1
    · apply Finset.sum_congr rfl
      intro i hi
      have := Finset.mem_range.mp hi
      rw [show a + 1 + i = a + (i+1) by omega, show n + 1 - 1 - (i+1) = n - 1 - i by omega]

/-- The little-endian value of a buffer range as the sum of 00_scope.md R8. -/
theorem littleEndianValue_readRange (m : Memory) (a n) : littleEndianValue (m.readRange a n) = ∑ i ∈ Finset.range n, (m.read (a+i)).toNat * 256 ^ i := by
  induction n generalizing a with
  | zero => simp [Memory.readRange, littleEndianValue]
  | succ n ih =>
    have : m.readRange a (n+1) = m.read a :: m.readRange (a+1) n := by
      simp only [Memory.readRange, List.range_succ_eq_map, List.map_cons, List.map_map, Nat.add_zero]
      congr 1
      apply List.map_congr_left
      intro k _; simp only [Function.comp]; congr 1; omega
    rw [this, littleEndianValue, ih, Finset.sum_range_succ', add_comm, Finset.mul_sum]
    congr 1
    · apply Finset.sum_congr rfl
      intro i hi
      rw [show a + 1 + i = a + (i+1) by omega, pow_succ]; ring
    · simp

/-- Byte i of a big-endian store. -/
theorem storeBigEndian_getD {W} (n : Nat) (v : BitVec W) (i) (h : i < n) : ((storeBigEndian n v).getD i 0#8).toNat = v.toNat / 256 ^ (n - 1 - i) % 256 := by
  simp [storeBigEndian, h]

/-- Byte i of a little-endian store. -/
theorem storeLittleEndian_getD {W} (n : Nat) (v : BitVec W) (i) (h : i < n) : ((storeLittleEndian n v).getD i 0#8).toNat = v.toNat / 256 ^ i % 256 := by
  simp [storeLittleEndian, h]

/-- Byte i is a digit of the big-endian value. -/
theorem bigEndianValue_digit (bytes : List Byte) (i) (h : i < bytes.length) : bigEndianValue bytes / 256 ^ (bytes.length - 1 - i) % 256 = (bytes.getD i 0#8).toNat := by
  induction bytes generalizing i with
  | nil => simp at h
  | cons b rest ih =>
    simp only [bigEndianValue, List.length_cons]
    have hlt := bigEndianValue_lt rest
    cases i with
    | zero =>
      simp only [Nat.sub_zero, List.getD_cons_zero, Nat.add_sub_cancel]
      rw [Nat.mul_comm, Nat.mul_add_div (by positivity), Nat.div_eq_of_lt hlt, Nat.add_zero]
      exact Nat.mod_eq_of_lt b.isLt
    | succ i =>
      simp only [List.length_cons, Nat.add_lt_add_iff_right] at h
      rw [List.getD_cons_succ, ← ih i h, show rest.length + 1 - 1 - (i+1) = rest.length - 1 - i by omega]
      have : 256 ^ rest.length = 256 ^ (rest.length - 1 - i) * 256 * 256 ^ i := by
        rw [mul_assoc, ← pow_succ', ← pow_add]; congr 1; omega
      rw [this, show b.toNat * (256 ^ (rest.length - 1 - i) * 256 * 256 ^ i) = 256 ^ (rest.length - 1 - i) * (256 * (b.toNat * 256^i)) by ring,
        Nat.mul_add_div (by positivity), Nat.mul_add_mod]

/-- Byte i is a digit of the little-endian value. -/
theorem littleEndianValue_digit (bytes : List Byte) (i) (h : i < bytes.length) : littleEndianValue bytes / 256 ^ i % 256 = (bytes.getD i 0#8).toNat := by
  induction bytes generalizing i with
  | nil => simp at h
  | cons b rest ih =>
    simp only [littleEndianValue]
    have hb := b.isLt
    cases i with
    | zero => simp; omega
    | succ i =>
      simp only [List.length_cons, Nat.add_lt_add_iff_right] at h
      rw [List.getD_cons_succ, ← ih i h, pow_succ', ← Nat.div_div_eq_div_mul]
      congr 2; omega

/-- `invAll` refuses exactly the strings with a byte outside the alphabet. -/
theorem invAll_eq_none (bs : List Byte) : invAll bs = none ↔ ∃ b ∈ bs, inv b = none := by
  induction bs with
  | nil => simp [invAll]
  | cons b bs ih =>
    simp only [invAll]
    split
    · simp_all
    · split <;> simp_all

/-- `invAll` answers one digit per byte, each the inverse of its byte. -/
theorem invAll_getD {bs ds} (h : invAll bs = some ds) : ds.length = bs.length ∧ ∀ i, i < bs.length → inv (bs.getD i 0#8) = some (ds.getD i 0#5) := by
  induction bs generalizing ds with
  | nil => simp only [invAll, Option.some.injEq] at h; subst h; simp
  | cons b bs ih =>
    simp only [invAll] at h
    split at h
    · cases h
    · next d hd =>
      split at h
      · cases h
      · next es he =>
        cases h
        obtain ⟨h1, h2⟩ := ih he
        refine ⟨by simp [h1], fun i hi => ?_⟩
        cases i with
        | zero => simpa using hd
        | succ i => simpa using h2 i (by simpa using hi)

/-- Digit i, counted from the least significant. -/
theorem digitsLowFirst_getD {W} (n : Nat) (v : BitVec W) (i) (h : i < n) : (digitsLowFirst n v).getD i 0#5 = BitVec.ofNat 5 (v.toNat / 32 ^ i) := by
  induction n generalizing v i with
  | zero => omega
  | succ n ih =>
    cases i with
    | zero => simp only [digitsLowFirst, List.getD_cons_zero, pow_zero, Nat.div_one]; apply BitVec.eq_of_toNat_eq; simp
    | succ i =>
      simp only [digitsLowFirst, List.getD_cons_succ]
      rw [ih _ i (by omega), toNat_shiftRight, Nat.div_div_eq_div_mul, pow_succ']; rfl

/-- Character i, counted from the most significant digit. -/
theorem digitString_getD {W} (n : Nat) (v : BitVec W) (i) (h : i < n) : (digitString n v).getD i 0#8 = alpha (BitVec.ofNat 5 (v.toNat / 32 ^ (n - 1 - i))) := by
  have hl := digitsLowFirst_length n v
  rw [← digitsLowFirst_getD n v (n-1-i) (by omega)]
  unfold digitString
  rw [List.getD_eq_getElem _ _ (by simpa using h), List.getD_eq_getElem _ _ (by omega), List.getElem_map, List.getElem_reverse]
  congr 2
  omega

/-- What shifting in digits left to right accumulates. -/
theorem accumulate_toNat {W} (hW : 5 ≤ W) (ds : List Small) (v : BitVec W) : (ds.foldl (fun v d => orLow (shiftLeft v 5#5) d) v).toNat = (v.toNat * 32 ^ ds.length + ∑ i ∈ Finset.range ds.length, (ds.getD i 0#5).toNat * 32 ^ (ds.length - 1 - i)) % 2 ^ W := by
  induction ds generalizing v with
  | nil => simp [Nat.mod_eq_of_lt v.isLt]
  | cons d ds ih =>
    rw [List.foldl_cons, ih, List.length_cons, Finset.sum_range_succ']
    have hmod : (orLow (shiftLeft v 5#5) d).toNat = (v.toNat * 32 + d.toNat) % 2 ^ W := by
      rw [toNat_orLow hW, toNat_shiftLeft]
      have h5 : (5#5 : Small).toNat = 5 := rfl
      rw [h5]
      have hd : d.toNat < 32 := d.isLt
      obtain ⟨j, rfl⟩ : ∃ j, W = j + 5 := ⟨W - 5, by omega⟩
      have e1 : v.toNat * 2 ^ 5 % 2 ^ (j+5) = 2 ^ 5 * (v.toNat % 2 ^ j) := by
        rw [pow_add, Nat.mul_mod_mul_right]; ring
      rw [e1, ← Nat.two_pow_add_eq_or_of_lt (by simpa using hd)]
      have : v.toNat * 32 + d.toNat = 32 * v.toNat + d.toNat := by ring
      rw [this, show 2 ^ (j+5) = 32 * 2 ^ j by rw [pow_add]; ring]
      rw [Nat.mod_mul, Nat.mul_add_mod, Nat.mod_eq_of_lt hd, Nat.mul_add_div (by omega), Nat.div_eq_of_lt hd]
      simp; ring
    rw [hmod]
    simp only [List.getD_cons_zero, List.getD_cons_succ, Nat.sub_zero]
    have : ∑ i ∈ Finset.range ds.length, (ds.getD i 0#5).toNat * 32 ^ (ds.length + 1 - 1 - (i + 1)) = ∑ i ∈ Finset.range ds.length, (ds.getD i 0#5).toNat * 32 ^ (ds.length - 1 - i) := 
      Finset.sum_congr rfl fun i _ => by congr 2; omega
    rw [this, Nat.add_sub_cancel]
    rw [Nat.add_mod, Nat.mod_mul_mod, ← Nat.add_mod]
    congr 1; ring

/-- What the repeat loop of 41_decimal.md R80 collects: as many digits as it takes divisions by ten to reach 0, each the
remainder of its round. -/
theorem decimalLoop_spec {W : Nat} (steps : Nat) (v : BitVec W) (hs : 1 ≤ steps) (hv : v.toNat < 10 ^ steps) :
    1 ≤ (decimalLoop steps v).length ∧ v.toNat / 10 ^ (decimalLoop steps v).length = 0
    ∧ (∀ j, 1 ≤ j → j < (decimalLoop steps v).length → v.toNat / 10 ^ j ≠ 0)
    ∧ ∀ i, i < (decimalLoop steps v).length → ((decimalLoop steps v).getD i 0#8).toNat = 0x30 + v.toNat / 10 ^ i % 10 := by
  induction steps generalizing v with
  | zero => omega
  | succ k ih =>
    have hd : ((divSmall v 10#5).2).toNat = v.toNat % 10 := toNat_divSmall_snd v 10#5 (by decide)
    have hq : ((divSmall v 10#5).1).toNat = v.toNat / 10 := toNat_divSmall_fst v 10#5
    have hb : (decimalByte (divSmall v 10#5).2).toNat = 0x30 + v.toNat % 10 := by
      simp only [decimalByte, hd, BitVec.toNat_ofNat]; omega
    simp only [decimalLoop]
    split
    · next hz =>
      rw [isZero_iff, hq] at hz
      refine ⟨by simp, by simpa using hz, ?_, ?_⟩
      · intro j h1 h2; simp at h2; omega
      · intro i hi
        simp at hi; subst hi; simpa using hb
    · next hz =>
      have hz : v.toNat / 10 ≠ 0 := by rw [← hq]; intro h; exact hz ((isZero_iff _).mpr h)
      have hk : 1 ≤ k := by
        rcases k with _ | k
        · simp at hv; omega
        · omega
      obtain ⟨i1, i2, i3, i4⟩ := ih (divSmall v 10#5).1 hk (by rw [hq]; exact Nat.div_lt_of_lt_mul (by rw [← pow_succ']; exact hv))
      rw [hq] at i2 i3 i4
      refine ⟨by simp, ?_, ?_, ?_⟩
      · rw [List.length_cons, pow_succ', ← Nat.div_div_eq_div_mul]; exact i2
      · intro j h1 h2
        rw [List.length_cons] at h2
        rcases Nat.lt_or_ge 1 j with h | h
        · have := i3 (j-1) (by omega) (by omega)
          rw [Nat.div_div_eq_div_mul, ← pow_succ', show j - 1 + 1 = j by omega] at this
          exact this
        · have : j = 1 := by omega
          subst this; simpa using hz
      · intro i hi
        cases i with
        | zero => simpa using hb
        | succ i =>
          rw [List.length_cons] at hi
          rw [List.getD_cons_succ, i4 i (by omega), pow_succ', Nat.div_div_eq_div_mul]

end Sys2Proof.Machine
end

