-- ==== Sys2Proof/Tests/Slice0.lean ====
section
/-! SUPPORT. The implementer's own tests. Expected values are those of spec/95_test_vectors.md (the id is in each comment)
or words written out from 30_encoding.md; the `witness_` theorems show that the hypotheses of each statement are met. -/

set_option Elab.async false  -- one thread: a thread for each evaluated test would reserve more memory than the check allows

namespace Sys2Proof.Tests

open Sys2Proof.Machine

/-! Helpers -/

/-- The state a command answers with. -/
def after (o : Result) : State :=
  match o with
  | .next t => t
  | .fault _ => State.reset
  | .refused _ => State.reset

def answersNext (o : Result) : Bool :=
  match o with
  | .next _ => true
  | .fault _ => false
  | .refused _ => false

theorem next_of_answersNext (o : Result) (h : answersNext o = true) : o = .next (after o) := by
  cases o <;> simp_all [answersNext, after]

/-- The state after i from s. -/
def run (i : Instr) (s : State) : State := after (exec i s)

theorem exec_run (i : Instr) (s : State) : exec i s = .next (run i s) := by
  rcases exec_ends i s with ⟨k, h⟩ | ⟨u, h, -⟩
  · simp [run, h, raise_eq, after]
  · simp [run, h, complete_eq, after]

/-- Reset, then a byte string presented as 10_state.md R19 says. -/
def presented (bytes : List Byte) : State :=
  (State.reset.setIbuf (Memory.writeRange [] 0 (bytes.take 64))).setIlen (BitVec.ofNat 8 (min bytes.length 255))

def with128 (v : Nat) : State := State.reset.setAcc .w128 (BitVec.ofNat 128 v)

def with256 (v : Nat) : State := State.reset.setAcc .w256 (BitVec.ofNat 256 v)

/-- The bytes of a number, most significant first. -/
def bytesOf (count v : Nat) : List Byte := storeBigEndian count (BitVec.ofNat (8 * count) v)

/-- The ASCII bytes of a character list. -/
def text (cs : List Char) : List Byte := cs.map (fun c => BitVec.ofNat 8 c.toNat)

/-- An address: a prefix, one key digit, and 59 more characters, each the same. -/
def address (lead : List Char) (fill : Char) : List Byte := text (lead ++ List.replicate (64 - lead.length) fill)

/-! WellFormed: the one check -/

theorem test_divisor_zero_is_ill_formed : (Instr.divs .w128 0#5).wf = false := by decide

theorem test_divisor_one_is_well_formed : (Instr.divs .w256 1#5).wf = true := by decide

/-! Decode: every constructor's word, written out from 30_encoding.md R46 to R52 (V1 to V14) -/

theorem test_decode_zero : decode 0b0000110000000000#16 = .ok (.zero .w256) := by decide  -- V1

theorem test_decode_ldbe : decode 0b0001000000000000#16 = .ok (.ldbe .w128) := by decide  -- V2

theorem test_decode_stbe : decode 0b0001110000000000#16 = .ok (.stbe .w256) := by decide  -- V3

theorem test_decode_shl : decode 0b0010000000001010#16 = .ok (.shl .w128 10#5) := by decide  -- V4

theorem test_decode_shr : decode 0b0010110000000101#16 = .ok (.shr .w256 5#5) := by decide  -- V5

theorem test_decode_orli : decode 0b0011010000011111#16 = .ok (.orli .w256 31#5) := by decide  -- V6

theorem test_decode_orlr : decode 0b0011100000000000#16 = .ok (.orlr .w128) := by decide  -- V7

theorem test_decode_low5 : decode 0b0100010000000000#16 = .ok (.low5 .w256) := by decide  -- V8

theorem test_decode_isz : decode 0b0100100000000000#16 = .ok (.isz .w128) := by decide  -- V9

theorem test_decode_divs : decode 0b0101000000001010#16 = .ok (.divs .w128 10#5) := by decide  -- V10

theorem test_decode_dec : decode 0b0101110000000000#16 = .ok (.dec .w256) := by decide  -- V11

theorem test_decode_b32e : decode 0b0110000000110111#16 = .ok (.b32e 55#6) := by decide  -- V12

theorem test_decode_b32d : decode 0b0110100000111111#16 = .ok (.b32d 63#6) := by decide  -- V13

theorem test_decode_accenc : decode 0b1000000000000000#16 = .ok (.accenc) := by decide  -- V14

theorem test_decode_accdec : decode 0b1000100000000000#16 = .ok (.accdec) := by decide  -- V14

theorem test_decode_baldec : decode 0b1001000000000000#16 = .ok (.baldec) := by decide  -- V14

theorem test_decode_balenc : decode 0b1001100000000000#16 = .ok (.balenc) := by decide  -- V14

theorem test_illegal_words :  -- V15 to V24
    decode 0x0000#16 = .error .unassignedOpcode ∧ decode 0xA000#16 = .error .unassignedOpcode
    ∧ decode 0x7000#16 = .error .unassignedOpcode ∧ decode 0x7800#16 = .error .unassignedOpcode
    ∧ decode 0x5000#16 = .error .divisorZero ∧ decode 0x5400#16 = .error .divisorZero
    ∧ decode 0x2020#16 = .error .immediateBit5 ∧ decode 0x2440#16 = .error .reservedBits
    ∧ decode 0x1001#16 = .error .operandNotZero ∧ decode 0x6400#16 = .error .widthBitSet
    ∧ decode 0x8001#16 = .error .operandNotZero ∧ decode 0x8400#16 = .error .widthBitSet := by decide

theorem test_nearest_legal_neighbours :  -- section 2.1 of the vectors
    ([0x0800#16, 0x5001#16, 0x201F#16, 0x2400#16, 0x1000#16, 0x6000#16, 0x8000#16].all
      (fun w => (decode w).isOk)) = true := by decide

theorem test_table_word : decodeTableWord 16 0x500A = some (.divs .w128 10#5) := by decide

/-! One step of each command -/

theorem test_zero_clears_one_accumulator :  -- the example of R61
    (run (.zero .w128) (with128 0x4D2)).a128 = 0#128 := by decide

theorem test_ldbe128_is_big_endian :  -- V25a
    (run (.ldbe .w128) (presented (bytesOf 16 0x0102030405060708090A0B0C0D0E0F10))).a128 = 0x0102030405060708090A0B0C0D0E0F10#128 := by decide +kernel

theorem test_ldbe256_refuses_sixteen_bytes :  -- V25b
    (run (.ldbe .w256) (presented (bytesOf 16 0x01))).err = 3#3 := by decide +kernel

theorem test_stbe128_is_big_endian :  -- V25f
    ((run (.stbe .w128) (with128 0x0102030405060708090A0B0C0D0E0F10)).obuf.readRange 0 17) = bytesOf 16 0x0102030405060708090A0B0C0D0E0F10 ++ [0x00#8] := by decide +kernel

theorem test_stbe256_writes_leading_zeros :  -- V25h
    (run (.stbe .w256) (with256 0x3F)).olen = 32#8 ∧ (run (.stbe .w256) (with256 0x3F)).obuf.read 31 = 0x3F#8 := by decide +kernel

theorem test_shl128_drops_the_top_bit :  -- V26c
    (run (.shl .w128 5#5) (with128 0x8000000000000000000000000000000F)).a128 = 0x1E0#128 := by decide

theorem test_shl256_by_31 :  -- V27c
    (run (.shl .w256 31#5) (with256 (0xF8 * 2 ^ 248 + 0x1F))).a256 = 0xF80000000#256 := by decide +kernel

theorem test_shr128_brings_in_zeros :  -- V26c
    (run (.shr .w128 5#5) (with128 0x8000000000000000000000000000000F)).a128 = 0x04000000000000000000000000000000#128 := by decide

theorem test_shr128_by_31 :  -- V26d
    (run (.shr .w128 31#5) (with128 0x8000000000000000000000000000000F)).a128 = 0x00000001000000000000000000000000#128 := by decide

theorem test_orli_does_not_replace :  -- V28c
    (run (.orli .w256 6#5) (with256 0x21)).a256 = 0x27#256 := by decide

theorem test_orlr_uses_r :  -- V28d
    (run (.orlr .w128) ((with128 0x1E0).setR 18#5)).a128 = 0x1F2#128 := by decide

theorem test_low5_takes_five_bits :  -- V28e
    (run (.low5 .w128) (with128 0x4D2)).r = 18#5 := by decide

theorem test_isz_tests_its_own_accumulator :  -- V28i
    (run (.isz .w256) (with256 1)).z = false := by decide

theorem test_isz_of_zero :  -- V28g
    (run (.isz .w128) State.reset).z = true := by decide

theorem test_divs_quotient_and_remainder :  -- V29f
    (run (.divs .w128 31#5) (with128 (2 ^ 128 - 1))).a128 = 0x08421084210842108421084210842108#128 ∧ (run (.divs .w128 31#5) (with128 (2 ^ 128 - 1))).r = 7#5 := by decide +kernel

theorem test_divs_word_with_zero_divisor :  -- V29j
    (after (hostIssue 0x5000#16 (with128 9))).err = 5#3 ∧ (after (hostIssue 0x5000#16 (with128 9))).a128 = 9#128 := by decide

theorem test_dec_of_zero_is_one_digit :  -- V36a
    (run (.dec .w128) State.reset).olen = 1#8 ∧ (run (.dec .w128) State.reset).obuf.read 0 = 0x30#8 := by decide +kernel

theorem test_dec256_of_the_maximum :  -- V36o
    (run (.dec .w256) (with256 (2 ^ 256 - 1))).obuf.readRange 0 78 = text
      ['1', '1', '5', '7', '9', '2', '0', '8', '9', '2', '3', '7', '3', '1', '6', '1', '9', '5', '4', '2', '3', '5',
       '7', '0', '9', '8', '5', '0', '0', '8', '6', '8', '7', '9', '0', '7', '8', '5', '3', '2', '6', '9', '9', '8',
       '4', '6', '6', '5', '6', '4', '0', '5', '6', '4', '0', '3', '9', '4', '5', '7', '5', '8', '4', '0', '0', '7',
       '9', '1', '3', '1', '2', '9', '6', '3', '9', '9', '3', '5'] := by decide +kernel

theorem test_b32e_skips_the_gap_at_l :  -- V37d
    (run (.b32e 0#6) (State.reset.setR 19#5)).obuf.read 0 = 0x6D#8 := by decide

theorem test_b32e_keeps_olen :  -- V37f
    (run (.b32e 55#6) (State.reset.setR 31#5)).olen = 0#8 ∧ (run (.b32e 55#6) (State.reset.setR 31#5)).obuf.read 55 = 0x7A#8 := by decide

theorem test_b32d_reads_z :  -- V38b
    (run (.b32d 4#6) (State.reset.setIbuf [(4, 0x7A#8)])).r = 31#5 := by decide +kernel

theorem test_b32d_refuses_v :  -- V38d
    (run (.b32d 4#6) ((State.reset.setIbuf [(4, 0x76#8)]).setR 9#5)).err = 2#3 ∧ (run (.b32d 4#6) ((State.reset.setIbuf [(4, 0x76#8)]).setR 9#5)).r = 9#5 := by decide +kernel

/-- V35: the key 00 01 … 1f and the checksum 12 34 56 78 9a. -/
def keyAndChecksum : List Byte :=
  bytesOf 32 0x000102030405060708090A0B0C0D0E0F101112131415161718191A1B1C1D1E1F ++ bytesOf 5 0x123456789A

/-- V35: its address. -/
def keyAddress : List Byte :=
  text
      ['x', 'r', 'b', '_', '1', '1', '1', '3', '1', 'a', '3', 'i', 'a', '3', 'a', '8', '1', 'w', '6', '1', 'k',
       '4', 'i', 'd', '3', 'i', '8', 'i', 'w', '5', 'r', 'i', '4', '6', 'b', '3', '8', '7', '1', 'o', '4', 'r',
       'd', 'j', 'i', '8', 'a', 't', '5', 'e', 'g', '3', 't', '9', 'i', 'z', 'm', 'b', 'w', '7', 'e', 'f', '1',
       'k']

theorem test_accenc_of_a_counting_key :  -- V35
    (run .accenc (presented keyAndChecksum)).obuf.readRange 0 64 = keyAddress := by decide +kernel

theorem test_accenc_refuses_36_bytes :  -- V39
    (run .accenc (presented (keyAndChecksum.take 36))).err = 3#3 := by decide +kernel

theorem test_accdec_gives_the_key_back :  -- V45
    (run .accdec (presented keyAddress)).obuf.readRange 0 37 = keyAndChecksum := by decide +kernel

theorem test_accdec_tests_format_first :  -- V57, V58
    (run .accdec (presented (address ['n', 'a', 'n', 'o'] '0'))).err = 1#3 ∧ (run .accdec (presented (address ['x', 'r', 'b', '_', '0'] '1'))).err = 2#3 := by decide +kernel

theorem test_baldec_of_1234 :  -- V70
    (run .baldec (presented (bytesOf 16 1234))).obuf.readRange 0 4 = text ['1', '2', '3', '4'] ∧ (run .baldec (presented (bytesOf 16 1234))).olen = 4#8 := by decide +kernel

theorem test_baldec_refuses_15_bytes :  -- V71b
    (run .baldec (presented (bytesOf 15 1234))).err = 3#3 := by decide +kernel

theorem test_balenc_is_unimplemented :  -- V72
    (run .balenc State.reset).err = 4#3 := by decide

theorem test_err_is_not_sticky :  -- V73
    (run (.zero .w128) (run .balenc State.reset)).err = 0#3 := by decide

theorem test_step_runs_the_issued_word :  -- 70_reset_and_hazards.md R128, V9
    (after (step (State.reset.withFetchWord 16 0x4800))).z = true ∧ (after (step (State.reset.withFetchWord 16 0x4800))).pending = [] := by decide +kernel

/-! Witnesses: the hypotheses of each statement are met -/

theorem witness_EncodedCommandDecodesToItself : (Instr.divs .w256 31#5).wf = true := by decide

theorem witness_DecodedWordEncodesBack : decode 0x341F#16 = .ok (.orli .w256 31#5) := by decide

theorem witness_IllegalWordsAreThoseOfTheSixClauses :
    [0x0000#16, 0x7000#16, 0x7800#16, 0xA000#16, 0xFFFF#16, 0x2440#16, 0x2020#16, 0x1001#16, 0x8001#16, 0x6400#16,
      0x8400#16, 0x5000#16, 0x5400#16].all (fun word => decide (IllegalWord word)) = true
    ∧ [0x0800#16, 0x281F#16, 0x501F#16, 0x5401#16, 0x603F#16, 0x9800#16].all
      (fun word => decide (¬ IllegalWord word)) = true
    ∧ (State.reset.setPending [.issue 0xFFFF#16]).pending = .issue 0xFFFF#16 :: [] := by decide +kernel

theorem witness_StepRunsTheDecodedCommand :
    (State.reset.setPending [.issue 0x0800#16, .reset]).pending = .issue 0x0800#16 :: [.reset]
    ∧ decode 0x0800#16 = .ok (.zero .w128) := by decide

theorem witness_IssuedEncodingRunsItsCommand : (Instr.divs .w128 1#5).wf = true := by decide

theorem witness_HostTransactionsActAsListed :
    (State.reset.setPending [.writeIbuf 63 0x7A#8]).pending = .writeIbuf 63 0x7A#8 :: []
    ∧ (State.reset.setPending [.setIlen 255#8]).pending = .setIlen 255#8 :: []
    ∧ (State.reset.setPending [.issue 0x8000#16]).pending = .issue 0x8000#16 :: []
    ∧ decode 0x8000#16 = .ok .accenc
    ∧ (State.reset.setPending [.read (.obuf 77)]).pending = .read (.obuf 77) :: [] := by decide

theorem witness_PresentedInputIsTestedExactly :
    (63 : Nat) < min (List.replicate 65 0x31#8).length 64 ∧ min (List.replicate 65 0x31#8).length 64 ≤ 64 := by decide

theorem witness_IdleStepChangesNothing : State.reset.pending = [] := by decide

theorem witness_ResetFromOutsideForgetsEverything :
    ((with128 7).setPending [.reset, .issue 0x0800#16]).pending = .reset :: [.issue 0x0800#16] := by decide

theorem witness_StepKeepsTheInvariant :
    ((presented [0x31#8]).setPending [.writeIbuf 63 0x7A#8]).inv
    ∧ step ((presented [0x31#8]).setPending [.writeIbuf 63 0x7A#8]) =
      .next (after (step ((presented [0x31#8]).setPending [.writeIbuf 63 0x7A#8]))) :=
  ⟨by unfold State.inv; decide, rfl⟩

theorem witness_ByteWriteChangesThatByteOnly : Memory.wf 78 [(0, 0x31#8), (76, 0x39#8)] ∧ 77 < 78 := by decide

theorem witness_CanonicalBuffersThatReadAlikeAreEqual :
    Memory.wf 64 (Memory.write [] 3 0x31#8) ∧ Memory.wf 64 [(3, 0x31#8)]
    ∧ ∀ k, Memory.read (Memory.write [] 3 0x31#8) k = Memory.read [(3, 0x31#8)] k :=
  ⟨by decide, by decide, fun _ => rfl⟩

theorem witness_CommandWritesOnlyItsTableRow :
    exec (.dec .w128) (with128 10) = .next (run (.dec .w128) (with128 10)) ∧ 2 ∉ writesObuf (.dec .w128) (with128 10) :=
  ⟨exec_run _ _, by decide +kernel⟩

theorem witness_CommandReadsOnlyItsTableRow :
    (∀ p ∈ readsRegisters (.shl .w128 5#5), p.agrees (with128 3) ((with128 3).setZ true))
    ∧ (∀ k ∈ readsIbuf (.shl .w128 5#5), (with128 3).ibuf.read k = ((with128 3).setZ true).ibuf.read k)
    ∧ exec (.shl .w128 5#5) (with128 3) = .next (run (.shl .w128 5#5) (with128 3))
    ∧ exec (.shl .w128 5#5) ((with128 3).setZ true) = .next (run (.shl .w128 5#5) ((with128 3).setZ true))
    ∧ (run (.shl .w128 5#5) (with128 3)).err = 0#3 :=
  ⟨by simp [readsRegisters, accPart, Part.agrees], by simp [readsIbuf], exec_run _ _, exec_run _ _, by decide⟩

theorem witness_ErrRecordsTheKindWhoseCauseHolds :
    HasCause .invalidLength (.ldbe .w128) State.reset ∧ (run (.ldbe .w128) State.reset).err ≠ 0#3
    ∧ (run (.zero .w128) State.reset).err = 0#3 ∧ IllegalWord 0x0000#16 :=
  ⟨.inl ⟨.w128, rfl, by decide⟩, by decide +kernel, by decide, by decide⟩

theorem witness_CommandRaisesOnlyItsListedKinds :
    Instr.wf .accdec = true ∧ exec .accdec State.reset = .next (run .accdec State.reset)
    ∧ ErrorKind.invalidCharacter ∈ canRaise .accdec ∧ IllegalWord 0x5400#16 :=
  ⟨by decide, exec_run _ _, by decide, by decide⟩

theorem witness_FailedCommandChangesErrAlone :
    (∃ t, hostIssue 0x9800#16 (with128 7) = .next t ∧ t.err ≠ 0#3)
    ∧ ∃ t, hostIssue 0xFFFF#16 (with128 7) = .next t ∧ t.err ≠ 0#3 :=
  ⟨⟨_, rfl, by decide⟩, ⟨_, rfl, by decide⟩⟩

theorem witness_FailureLeavesNoTrace :
    exec .balenc (with128 7) = .next (run .balenc (with128 7)) ∧ (run .balenc (with128 7)).err ≠ 0#3 :=
  ⟨exec_run _ _, by decide⟩

theorem witness_FormatIsReportedOverCharacter :
    HasCause .invalidFormat .accdec State.reset
    ∧ (¬ HasCause .invalidFormat .accdec (presented (address ['x', 'r', 'b', '-'] '0'))
      ∧ HasCause .invalidCharacter .accdec (presented (address ['x', 'r', 'b', '-'] '0')))
    ∧ IllegalWord 0x0000#16
    ∧ (Instr.baldec ≠ .accdec ∧ HasCause .invalidLength .baldec State.reset) := by
  refine ⟨⟨rfl, .inl (by decide)⟩, ⟨?_, .inl ⟨rfl, 63, by decide, by decide, by decide +kernel⟩⟩, by decide,
    by decide, .inr (.inr ⟨rfl, by decide⟩)⟩
  have h : (presented (address ['x', 'r', 'b', '-'] '0')).ilen.toNat = 64
      ∧ (let m := (presented (address ['x', 'r', 'b', '-'] '0')).ibuf
         m.read 0 = 0x78#8 ∧ m.read 1 = 0x72#8 ∧ m.read 2 = 0x62#8 ∧ m.read 3 = 0x2D#8) := by decide +kernel
  rintro ⟨-, hl | hp⟩
  · exact hl h.1
  · exact hp ⟨h.2.1, h.2.2.1, h.2.2.2.1, .inr h.2.2.2.2⟩

theorem witness_RepeatedCommandGivesTheSameOutputs :
    inPlace (.dec .w128) = false ∧ exec (.dec .w128) (with128 10) = .next (run (.dec .w128) (with128 10))
    ∧ (run (.dec .w128) (with128 10)).err = 0#3 :=
  ⟨by decide, exec_run _ _, by decide +kernel⟩

theorem witness_LdbeLoadsExactlyWBitsBigEndian :
    (presented (bytesOf 16 1)).ilen.toNat = Width.bytes .w128 ∧ (presented (bytesOf 32 1)).ilen.toNat = Width.bytes .w256
    ∧ (presented (bytesOf 32 1)).ilen.toNat ≠ Width.bytes .w128 := by decide +kernel

theorem witness_StbeStoresExactlyWBitsBigEndian :
    (presented (bytesOf 16 258)).ilen.toNat = Width.bytes .w128
    ∧ exec (.ldbe .w128) (presented (bytesOf 16 258)) = .next (run (.ldbe .w128) (presented (bytesOf 16 258)))
    ∧ (with128 258).acc .w128 = (run (.ldbe .w128) (presented (bytesOf 16 258))).acc .w128 :=
  ⟨by decide +kernel, exec_run _ _, by decide +kernel⟩

theorem witness_OrliOrsIntoTheLowFiveBits :
    ((with256 0x20).acc .w256).toNat % 32 = 0 := by decide

theorem witness_OrlrOrsRegisterRIntoTheLowFiveBits :
    (((with128 0x1E0).setR 18#5).acc .w128).toNat % 32 = 0 := by decide

theorem witness_DivsGivesQuotientAndRemainder : (1#5 : Small) ≠ 0#5 ∧ (31#5 : Small) ≠ 0#5 := by decide

theorem witness_NarrowLoadIsTheHighHalfOfTheWideLoad :
    (presented (bytesOf 16 0xFF01)).ilen.toNat = 16 ∧ (presented (bytesOf 32 (0xFF01 * 2 ^ 128 + 2))).ilen.toNat = 32
    ∧ ∀ k, k < 16 → (presented (bytesOf 16 0xFF01)).ibuf.read k
        = (presented (bytesOf 32 (0xFF01 * 2 ^ 128 + 2))).ibuf.read k := by decide +kernel

theorem witness_LoadAndStoreAreInverse :
    (bytesOf 16 7).length = Width.bytes .w128 ∧ (bytesOf 32 7).length = Width.bytes .w256 ∧ (bytesOf 5 7).length = 5 := by
  decide +kernel

theorem witness_DecimalStringDenotesTheValue :
    ((with128 0).acc .w128).toNat = 0 ∧ ((with256 (10 ^ 77)).acc .w256).toNat ≠ 0 := by decide +kernel

theorem witness_DecEqualsRoundsOfDivideByTen :
    2 < (run (.dec .w128) (with128 255)).olen.toNat := by decide +kernel

theorem witness_AlphaIsTheSpecsAlphabet : alpha 31#5 = alpha 31#5 := rfl

theorem witness_B32dReadsOneDigitOrFails :
    (State.reset.setIbuf [(63, 0x7A#8)]).ibuf.read 63 = alpha 31#5
    ∧ ∀ v : Small, (State.reset.setIbuf [(63, 0x6C#8)]).ibuf.read 63 ≠ alpha v := by decide +kernel

theorem witness_AccencWritesTheAddress :
    (presented keyAndChecksum).ilen.toNat = 37 ∧ State.reset.ilen.toNat ≠ 37 := by decide +kernel

theorem witness_EncodedAddressIsWellFormed : (presented keyAndChecksum).ilen.toNat = 37 := by decide +kernel

theorem witness_AccencKeyEqualsRoundsOfPrimitives : (presented keyAndChecksum).ilen.toNat = 37 := by decide +kernel

theorem prefix_of_reads (s : State) (h : s.ibuf.read 0 = 0x78#8 ∧ s.ibuf.read 1 = 0x72#8 ∧ s.ibuf.read 2 = 0x62#8
    ∧ (s.ibuf.read 3 = 0x5F#8 ∨ s.ibuf.read 3 = 0x2D#8)) : PrefixIsXrb s := h

theorem digits_of_reads (s : State) (v : Small)
    (h : ∀ k, k < 60 → inv (s.ibuf.read (4 + k)) = some v) : ∀ j, 4 ≤ j → j ≤ 63 → inv (s.ibuf.read j) = some v := by
  intro j h4 h63
  have := h (j - 4) (by omega)
  rwa [show 4 + (j - 4) = j by omega] at this

theorem witness_AccdecReadsTheAddress :
    State.reset.ilen.toNat ≠ 64 ∧ ¬ PrefixIsXrb State.reset
    ∧ ((presented (address ['x', 'r', 'b', '_'] 'l')).ilen.toNat = 64
      ∧ PrefixIsXrb (presented (address ['x', 'r', 'b', '_'] 'l'))
      ∧ ∃ j, 4 ≤ j ∧ j ≤ 63 ∧ inv ((presented (address ['x', 'r', 'b', '_'] 'l')).ibuf.read j) = none)
    ∧ ((presented (address ['x', 'r', 'b', '-'] 'z')).ilen.toNat = 64
      ∧ PrefixIsXrb (presented (address ['x', 'r', 'b', '-'] 'z'))
      ∧ ∀ j, 4 ≤ j → j ≤ 63 → inv ((presented (address ['x', 'r', 'b', '-'] 'z')).ibuf.read j) = some 31#5) :=
  ⟨by decide, fun h => absurd h.1 (by decide),
    ⟨by decide +kernel, prefix_of_reads _ (by decide +kernel), 63, by decide, by decide, by decide +kernel⟩,
    by decide +kernel, prefix_of_reads _ (by decide +kernel), digits_of_reads _ _ (by decide +kernel)⟩

theorem witness_RedundantBitsAndPrefixDoNotMatter :  -- V46, V47
    let s₁ := presented (address ['x', 'r', 'b', '_', 'z'] '1')
    let s₂ := presented (address ['x', 'r', 'b', '-', '3'] '1')
    s₁.ilen.toNat = 64 ∧ s₂.ilen.toNat = 64 ∧ PrefixIsXrb s₁ ∧ PrefixIsXrb s₂
    ∧ inv (s₁.ibuf.read 4) = some 31#5 ∧ inv (s₂.ibuf.read 4) = some 1#5
    ∧ (31#5 : Small).toNat % 2 = (1#5 : Small).toNat % 2
    ∧ (∀ j, 5 ≤ j → j ≤ 63 → s₁.ibuf.read j = s₂.ibuf.read j)
    ∧ (run .accdec s₁).err = 0#3 := by
  refine ⟨by decide +kernel, by decide +kernel, prefix_of_reads _ (by decide +kernel),
    prefix_of_reads _ (by decide +kernel), by decide +kernel, by decide +kernel, by decide, ?_, by decide +kernel⟩
  have h : ∀ k, k < 64 → 5 ≤ k → (presented (address ['x', 'r', 'b', '_', 'z'] '1')).ibuf.read k
      = (presented (address ['x', 'r', 'b', '-', '3'] '1')).ibuf.read k := by decide +kernel
  exact fun j h5 h63 => h j (by omega) h5

theorem witness_AccdecKeyEqualsRoundsOfPrimitives :
    exec .accdec (presented keyAddress) = .next (run .accdec (presented keyAddress))
    ∧ (run .accdec (presented keyAddress)).err = 0#3 :=
  ⟨exec_run _ _, by decide +kernel⟩

theorem witness_DecodingAnEncodedAddressGivesItBack :
    (presented keyAndChecksum).ilen.toNat = 37 ∧ (presented keyAddress).ilen.toNat = 64
    ∧ ∀ k, k < 64 → (presented keyAddress).ibuf.read k = (run .accenc (presented keyAndChecksum)).obuf.read k := by
  decide +kernel

theorem witness_ReencodingReproducesCanonicalAddressesAlone :
    exec .accdec (presented keyAddress) = .next (run .accdec (presented keyAddress))
    ∧ (run .accdec (presented keyAddress)).err = 0#3 ∧ (presented keyAndChecksum).ilen.toNat = 37
    ∧ ∀ k, k < 37 → (presented keyAndChecksum).ibuf.read k = (run .accdec (presented keyAddress)).obuf.read k :=
  ⟨exec_run _ _, by decide +kernel⟩

theorem witness_ChecksumCharactersFollowLittleEndianOrder : (presented keyAndChecksum).ilen.toNat = 37 := by
  decide +kernel

theorem witness_BaldecRendersTheSixteenBytes :
    (presented (bytesOf 16 1234)).ilen.toNat = 16 ∧ (presented (bytesOf 15 1234)).ilen.toNat ≠ 16 := by decide +kernel

end Sys2Proof.Tests
end

section
/-! The host transactions of 10_state.md R24, and reset. An issued word runs its command on the state whose waiting list
has lost the word; the key fact is that no command looks at that list, so running it commutes with replacing it. -/

namespace Sys2Proof.Machine

/-! Replacing the waiting list commutes with every other write -/

theorem State.setR_setPending (s : State) (ts : List Transaction) (v : Small) :
    (s.setPending ts).setR v = (s.setR v).setPending ts := (rfl)

theorem State.setZ_setPending (s : State) (ts : List Transaction) (b : Bool) :
    (s.setPending ts).setZ b = (s.setZ b).setPending ts := (rfl)

theorem State.setErr_setPending (s : State) (ts : List Transaction) (e : BitVec 3) :
    (s.setPending ts).setErr e = (s.setErr e).setPending ts := (rfl)

theorem State.setIlen_setPending (s : State) (ts : List Transaction) (n : BitVec 8) :
    (s.setPending ts).setIlen n = (s.setIlen n).setPending ts := (rfl)

theorem State.setIbuf_setPending (s : State) (ts : List Transaction) (m : Memory) :
    (s.setPending ts).setIbuf m = (s.setIbuf m).setPending ts := (rfl)

theorem State.setObuf_setPending (s : State) (ts : List Transaction) (m : Memory) :
    (s.setPending ts).setObuf m = (s.setObuf m).setPending ts := (rfl)

theorem State.setAcc_setPending (s : State) (ts : List Transaction) (w : Width) (v : BitVec w.bits) :
    (s.setPending ts).setAcc w v = (s.setAcc w v).setPending ts := by cases w <;> exact (rfl)

theorem State.emit_setPending (s : State) (ts : List Transaction) (bytes : List Byte) :
    (s.setPending ts).emit bytes = (s.emit bytes).setPending ts := (rfl)

/-- Replace the waiting list in the state that a result answers with. -/
def setPendingAfter (ts : List Transaction) (o : Result) : Result :=
  match o with
  | .next t => .next (t.setPending ts)
  | .fault f => .fault f
  | .refused r => .refused r

@[simp] theorem setPendingAfter_next (ts : List Transaction) (t : State) :
    setPendingAfter ts (.next t) = .next (t.setPending ts) := rfl

theorem raise_setPending (k : ErrorKind) (s : State) (ts : List Transaction) :
    raise k (s.setPending ts) = setPendingAfter ts (raise k s) := by
  rw [raise_eq, raise_eq, State.setErr_setPending, setPendingAfter_next]

theorem complete_setPending (s : State) (ts : List Transaction) :
    complete (s.setPending ts) = setPendingAfter ts (complete s) := by
  rw [complete_eq, complete_eq, State.setErr_setPending, setPendingAfter_next]

/-- No command looks at the host's waiting list: the commands with a test take the same branch, and every write
commutes with replacing the list. -/
theorem exec_setPending (i : Instr) (s : State) (ts : List Transaction) :
    exec i (s.setPending ts) = setPendingAfter ts (exec i s) := by
  cases i <;> simp only [exec]
  case ldbe w =>
    simp only [execLdbe, State.setPending_ilen]
    split
    · exact raise_setPending _ s ts
    · simp only [State.setPending_ibuf, State.setAcc_setPending, complete_setPending]
  case divs w d =>
    simp only [execDivs]
    split
    · exact raise_setPending _ s ts
    · simp only [State.setPending_acc, State.setAcc_setPending, State.setR_setPending, complete_setPending]
  case b32d p =>
    simp only [execB32d, State.setPending_ibuf]
    split
    · exact raise_setPending _ s ts
    · simp only [State.setR_setPending, complete_setPending]
  case accenc =>
    simp only [execAccenc, State.setPending_ilen]
    split
    · exact raise_setPending _ s ts
    · simp only [State.setPending_ibuf, State.emit_setPending, complete_setPending]
  case accdec =>
    simp only [execAccdec, State.setPending_ilen, State.setPending_ibuf]
    split
    · exact raise_setPending _ s ts
    · split
      · exact raise_setPending _ s ts
      · split
        · exact raise_setPending _ s ts
        · simp only [State.emit_setPending, complete_setPending]
  case baldec =>
    simp only [execBaldec, State.setPending_ilen]
    split
    · exact raise_setPending _ s ts
    · simp only [State.setPending_ibuf, State.emit_setPending, complete_setPending]
  case balenc => exact raise_setPending _ s ts
  all_goals simp only [execZero, execStbe, execShl, execShr, execOrli, execOrlr, execLow5, execIsz, execDec, execB32e,
    State.setPending_acc, State.setPending_r, State.setPending_obuf, State.setAcc_setPending, State.setR_setPending,
    State.setZ_setPending, State.setObuf_setPending, State.emit_setPending, complete_setPending]

/-- Every command answers a next state (60_exceptions.md R110, R112). -/
theorem exec_completes (i : Instr) (s : State) : ∃ u, exec i s = .next u := by
  rcases exec_ends i s with ⟨k, h⟩ | ⟨u, h, -⟩
  · exact ⟨_, h.trans (raise_eq k s)⟩
  · exact ⟨_, h.trans (complete_eq u)⟩

/-! One step per kind of transaction -/

/-- A step applies the oldest waiting transaction to the state that waits for the others. -/
theorem step_of_pending_cons {s : State} {x : Transaction} {rest : List Transaction} (h : s.pending = x :: rest) :
    step s = applyTransaction x (s.setPending rest) := by
  simp [step, advance, h]

theorem step_of_writeIbuf {s : State} {i : Fin Config.ibufSize} {b : Byte} {rest : List Transaction}
    (h : s.pending = .writeIbuf i b :: rest) :
    step s = .next (((s.setPending rest).setIbuf (s.ibuf.write i.val b)).setReply .none) := by
  rw [step_of_pending_cons h, applyTransaction, hostWriteIbuf, State.setPending_ibuf]

theorem step_of_setIlen {s : State} {n : BitVec 8} {rest : List Transaction} (h : s.pending = .setIlen n :: rest) :
    step s = .next (((s.setPending rest).setIlen n).setReply .none) := by
  rw [step_of_pending_cons h, applyTransaction, hostSetIlen]

/-- Reading a port does not depend on what the host still has waiting. -/
@[simp] theorem portValue_setPending (port : Port) (s : State) (ts : List Transaction) :
    portValue port (s.setPending ts) = portValue port s := by
  cases port <;> simp [portValue]

theorem step_of_read {s : State} {port : Port} {rest : List Transaction} (h : s.pending = .read port :: rest) :
    step s = .next ((s.setPending rest).setReply (portValue port s)) := by
  rw [step_of_pending_cons h, applyTransaction, hostRead, portValue_setPending]

/-- Issuing a legal word is its command, with the new ERR as the answer. -/
theorem step_of_issue_legal {s u : State} {word : CommandWord} {rest : List Transaction} {i : Instr}
    (h : s.pending = .issue word :: rest) (hi : decode word = .ok i) (hu : exec i s = .next u) :
    step s = .next ((u.setPending rest).setReply (.err u.err)) := by
  have hrun : exec i (s.setPending rest) = .next (u.setPending rest) := by
    rw [exec_setPending, hu, setPendingAfter_next]
  simp only [step_of_issue s word rest h, hostIssue, hi, hrun, answerErr, State.setPending_err]

/-- Issuing an illegal word is error entry with IllegalCommand, answered in the same way (60_exceptions.md R108). -/
theorem step_of_issue_illegal {s : State} {word : CommandWord} {rest : List Transaction} {e : DecodeError}
    (h : s.pending = .issue word :: rest) (he : decode word = .error e) :
    step s = .next (((s.setPending rest).setErr ErrorKind.illegalCommand.code).setReply
      (.err ErrorKind.illegalCommand.code)) := by
  simp only [step_of_issue s word rest h, hostIssue, he, raise_eq, answerErr, State.setErr_err]

/-! Frames -/

/-- Two updates in a row keep what neither of them changes. -/
theorem KeepsAllBut.append {xs ys : List Part} {s t u : State} (h : KeepsAllBut xs s t) (k : KeepsAllBut ys t u) :
    KeepsAllBut (xs ++ ys) s u :=
  (h.mono (List.subset_append_left xs ys)).trans (k.mono (List.subset_append_right xs ys))

/-- Taking a transaction off the list and answering it touches the model's two own fields alone. -/
theorem keepsAllBut_setPending_setReply (s : State) (ts : List Transaction) (v : Reply) :
    KeepsAllBut [.pending, .reply] s ((s.setPending ts).setReply v) :=
  (keepsAllBut_setPending s ts).append (keepsAllBut_setReply _ v)

theorem keepsAllBut_step_writeIbuf (s : State) (ts : List Transaction) (m : Memory) (v : Reply) :
    KeepsAllBut [.ibuf, .pending, .reply] s (((s.setPending ts).setIbuf m).setReply v) := by
  rw [State.setIbuf_setPending]
  exact (keepsAllBut_setIbuf s m).append (keepsAllBut_setPending_setReply _ ts v)

theorem keepsAllBut_step_setIlen (s : State) (ts : List Transaction) (n : BitVec 8) (v : Reply) :
    KeepsAllBut [.ilen, .pending, .reply] s (((s.setPending ts).setIlen n).setReply v) := by
  rw [State.setIlen_setPending]
  exact (keepsAllBut_setIlen s n).append (keepsAllBut_setPending_setReply _ ts v)

/-! The obligations -/

/-- Settles O7, a transaction at a time: each step is written out by its `step_of_` lemma, and a word is either legal,
where the command runs as if the word still waited, or illegal, where there is no command to compare with. -/
theorem hostTransactionsActAsListed : Obligations.HostTransactionsActAsListed := by
  intro s rest
  refine ⟨fun i b h => ?write, fun n h => ?length, fun word h => ?issue, fun port h => ?read⟩
  case write =>
    refine ⟨_, step_of_writeIbuf h, ?_, fun k hk => ?_, by simp, keepsAllBut_step_writeIbuf s rest _ _⟩
    · simp [Memory.read_write]
    · simp [Memory.read_write, hk]
  case length =>
    exact ⟨_, step_of_setIlen h, by simp, by simp, keepsAllBut_step_setIlen s rest n _⟩
  case issue =>
    cases hd : decode word with
    | ok i =>
      obtain ⟨u, hu⟩ := exec_completes i s
      refine ⟨_, step_of_issue_legal h hd hu, by simp, by simp, fun j hj => ?_⟩
      obtain rfl : i = j := Except.ok.inj hj
      exact ⟨u, hu, keepsAllBut_setPending_setReply u rest _⟩
    | error e => exact ⟨_, step_of_issue_illegal h hd, by simp, by simp, fun j hj => nomatch hj⟩
  case read =>
    refine ⟨_, step_of_read h, by simp, keepsAllBut_setPending_setReply s rest _, ?_⟩
    rw [State.setReply_reply]
    cases port <;> rfl

/-- Settles O12: the registers are those `State.reset` lists, and a buffer with no cell reads 0x00 everywhere. -/
theorem resetLeavesTheTabledValues : Obligations.ResetLeavesTheTabledValues :=
  ⟨rfl, rfl, rfl, rfl, rfl, rfl, rfl, fun k _ => Memory.read_nil k, fun k _ => Memory.read_nil k⟩

end Sys2Proof.Machine
end

section
/-! The command words of 30_encoding.md. The fields of R46 are read once as numbers, for the clauses of R53, and once as
the parts that concatenate to the word, for the round trip between the legal words and the well-formed commands; the
round trip is what counts the legal words. -/

namespace Sys2Proof.Machine

/-! The fields as numbers -/

theorem toNat_eq_zero_iff {n : Nat} (v : BitVec n) : v.toNat = 0 ↔ v = 0#n := by
  rw [← BitVec.toNat_inj, BitVec.toNat_ofNat, Nat.zero_mod]

theorem toNat_opField (word : CommandWord) : (opField word).toNat = opNumber word := by
  have := word.isLt
  simp only [opField, opNumber, BitVec.extractLsb'_toNat, Nat.shiftRight_eq_div_pow]
  omega

theorem opField_eq_ofNat {word : CommandWord} {k : Nat} (h : (opField word).toNat = k) :
    opField word = BitVec.ofNat 5 k := by
  rw [← h, BitVec.ofNat_toNat, BitVec.setWidth_eq]

theorem opNumber_lt (word : CommandWord) : opNumber word < 32 := by
  rw [← toNat_opField]
  exact (opField word).isLt

theorem toNat_widthField (word : CommandWord) : (widthField word).toNat = word.toNat / 2 ^ 10 % 2 := by
  rw [widthField, BitVec.extractLsb'_toNat, Nat.shiftRight_eq_div_pow, pow_one]

theorem widthField_eq_zero_iff (word : CommandWord) : widthField word = 0#1 ↔ word.toNat / 2 ^ 10 % 2 = 0 := by
  rw [← toNat_widthField, toNat_eq_zero_iff]

theorem toNat_reservedField (word : CommandWord) : (reservedField word).toNat = word.toNat / 2 ^ 6 % 2 ^ 4 := by
  rw [reservedField, BitVec.extractLsb'_toNat, Nat.shiftRight_eq_div_pow]

theorem reservedField_eq_zero_iff (word : CommandWord) : reservedField word = 0#4 ↔ word.toNat / 2 ^ 6 % 2 ^ 4 = 0 := by
  rw [← toNat_reservedField, toNat_eq_zero_iff]

theorem toNat_operandField (word : CommandWord) : (operandField word).toNat = word.toNat % 2 ^ 6 := by
  rw [operandField, BitVec.extractLsb'_toNat, Nat.shiftRight_zero]

theorem operandField_eq_zero_iff (word : CommandWord) : operandField word = 0#6 ↔ word.toNat % 2 ^ 6 = 0 := by
  rw [← toNat_operandField, toNat_eq_zero_iff]

theorem toNat_bit5Field (word : CommandWord) : (bit5Field word).toNat = word.toNat / 2 ^ 5 % 2 := by
  rw [bit5Field, BitVec.extractLsb'_toNat, Nat.shiftRight_eq_div_pow, pow_one]

theorem bit5Field_eq_zero_iff (word : CommandWord) : bit5Field word = 0#1 ↔ word.toNat / 2 ^ 5 % 2 = 0 := by
  rw [← toNat_bit5Field, toNat_eq_zero_iff]

theorem toNat_immField (word : CommandWord) : (immField word).toNat = word.toNat % 2 ^ 5 := by
  rw [immField, BitVec.extractLsb'_toNat, Nat.shiftRight_zero]

theorem immField_eq_zero_iff (word : CommandWord) : immField word = 0#5 ↔ word.toNat % 2 ^ 5 = 0 := by
  rw [← toNat_immField, toNat_eq_zero_iff]

/-! What the decoder refuses -/

/-- A check that answers an error refuses when it applies or when what follows it refuses. -/
theorem check_refuses_iff {α : Type} (p : Prop) [Decidable p] (d : DecodeError) (x : Except DecodeError α) :
    (∃ e, (if p then .error d else x) = .error e) ↔ p ∨ ∃ e, x = .error e := by
  by_cases hp : p <;> simp [hp]

theorem decodeN_refuses_iff (word : CommandWord) (c : Width → Instr) :
    (∃ e, decodeN word c = .error e) ↔ word.toNat % 2 ^ 6 ≠ 0 := by
  simp only [decodeN, check_refuses_iff, ne_eq, operandField_eq_zero_iff, reduceCtorEq, exists_false, or_false]

theorem decodeI_refuses_iff (word : CommandWord) (c : Width → Small → Instr) :
    (∃ e, decodeI word c = .error e) ↔ word.toNat / 2 ^ 5 % 2 ≠ 0 := by
  simp only [decodeI, check_refuses_iff, ne_eq, bit5Field_eq_zero_iff, reduceCtorEq, exists_false, or_false]

theorem decodeDivs_refuses_iff (word : CommandWord) :
    (∃ e, decodeDivs word = .error e) ↔ word.toNat / 2 ^ 5 % 2 ≠ 0 ∨ word.toNat % 2 ^ 5 = 0 := by
  simp only [decodeDivs, check_refuses_iff, ne_eq, bit5Field_eq_zero_iff, immField_eq_zero_iff, reduceCtorEq,
    exists_false, or_false]

theorem decodeP_refuses_iff (word : CommandWord) (c : Position → Instr) :
    (∃ e, decodeP word c = .error e) ↔ word.toNat / 2 ^ 10 % 2 ≠ 0 := by
  simp only [decodeP, check_refuses_iff, ne_eq, widthField_eq_zero_iff, reduceCtorEq, exists_false, or_false]

theorem decodeM_refuses_iff (word : CommandWord) (c : Instr) :
    (∃ e, decodeM word c = .error e) ↔ word.toNat / 2 ^ 10 % 2 ≠ 0 ∨ word.toNat % 2 ^ 6 ≠ 0 := by
  simp only [decodeM, check_refuses_iff, ne_eq, widthField_eq_zero_iff, operandField_eq_zero_iff, reduceCtorEq,
    exists_false, or_false]

/-- Past the reserved bits a word is refused by clause (a) or by the clauses of its row's format. -/
theorem decodeOp_refuses_iff (word : CommandWord) (hres : word.toNat / 2 ^ 6 % 2 ^ 4 = 0) :
    (∃ e, decodeOp word = .error e) ↔ IllegalWord word := by
  simp only [decodeOp, toNat_opField, IllegalWord, hres, ne_eq, not_true_eq_false, false_or]
  split
  case h_1 h | h_2 h | h_3 h | h_7 h | h_8 h | h_9 h | h_11 h => simp [decodeN_refuses_iff, h]
  case h_4 h | h_5 h | h_6 h => simp [decodeI_refuses_iff, h]
  case h_10 h => simp [decodeDivs_refuses_iff, h]
  case h_12 h | h_13 h => simp [decodeP_refuses_iff, h]
  case h_14 h | h_15 h | h_16 h | h_17 h => simp [decodeM_refuses_iff, h, or_comm]
  case h_18 =>
    have := opNumber_lt word
    simp only [imp_false] at *
    have unassigned : opNumber word = 0x00 ∨ opNumber word = 0x0E ∨ opNumber word = 0x0F ∨ 0x14 ≤ opNumber word := by
      omega
    exact iff_of_true ⟨_, rfl⟩ (.inl unassigned)

/-- The decoder refuses exactly the words of 30_encoding.md R53. -/
theorem decode_refuses_iff (word : CommandWord) : (∃ e, decode word = .error e) ↔ IllegalWord word := by
  rw [decode, check_refuses_iff, ne_eq, reservedField_eq_zero_iff]
  by_cases hres : word.toNat / 2 ^ 6 % 2 ^ 4 = 0
  · rw [decodeOp_refuses_iff word hres, or_iff_right (not_not.mpr hres)]
  · exact iff_of_true (.inl hres) (.inr (.inl hres))

/-! A word is the concatenation of its fields -/

/-- A word with the reserved bits 0, from the other fields of 30_encoding.md R46. -/
def assemble (op : BitVec 5) (w : BitVec 1) (operand : Position) : CommandWord := op ++ w ++ 0#4 ++ operand

theorem encodeN_eq_assemble (op : BitVec 5) (w : Width) : encodeN op w = assemble op (widthBit w) 0#6 := rfl

theorem encodeI_eq_assemble (op : BitVec 5) (w : Width) (imm : Small) :
    encodeI op w imm = assemble op (widthBit w) (0#1 ++ imm) := by
  rw [encodeI, assemble, BitVec.append_assoc, BitVec.cast_eq]

theorem encodeP_eq_assemble (op : BitVec 5) (p : Position) : encodeP op p = assemble op 0#1 p := rfl

theorem encodeM_eq_assemble (op : BitVec 5) : encodeM op = assemble op 0#1 0#6 := rfl

section Fields

variable (op : BitVec 5) (w : BitVec 1) (operand : Position) (imm : Small)

theorem toNat_assemble :
    (assemble op w operand).toNat = op.toNat * 2 ^ 11 + w.toNat * 2 ^ 10 + operand.toNat := by
  have hw := w.isLt
  have hop := operand.isLt
  simp only [assemble, BitVec.toNat_append, BitVec.toNat_ofNat, Nat.zero_mod, Nat.or_zero]
  rw [← Nat.shiftLeft_add_eq_or_of_lt hw, ← Nat.shiftLeft_add_eq_or_of_lt hop]
  simp only [Nat.shiftLeft_eq]
  omega

theorem toNat_zero_append_imm : (0#1 ++ imm).toNat = imm.toNat := by
  rw [BitVec.toNat_append, BitVec.toNat_ofNat, Nat.zero_mod, Nat.zero_shiftLeft, Nat.zero_or]

@[simp] theorem opField_assemble : opField (assemble op w operand) = op := by
  rw [← BitVec.toNat_inj, toNat_opField, opNumber, toNat_assemble]
  have := w.isLt
  have := operand.isLt
  omega

@[simp] theorem widthField_assemble : widthField (assemble op w operand) = w := by
  rw [← BitVec.toNat_inj, toNat_widthField, toNat_assemble]
  have := w.isLt
  have := operand.isLt
  omega

@[simp] theorem reservedField_assemble : reservedField (assemble op w operand) = 0#4 := by
  rw [← BitVec.toNat_inj, toNat_reservedField, toNat_assemble, BitVec.toNat_ofNat]
  have := operand.isLt
  omega

@[simp] theorem operandField_assemble : operandField (assemble op w operand) = operand := by
  rw [← BitVec.toNat_inj, toNat_operandField, toNat_assemble]
  have := operand.isLt
  omega

@[simp] theorem bit5Field_assemble : bit5Field (assemble op w (0#1 ++ imm)) = 0#1 := by
  rw [← BitVec.toNat_inj, toNat_bit5Field, toNat_assemble, toNat_zero_append_imm, BitVec.toNat_ofNat]
  have := imm.isLt
  omega

@[simp] theorem immField_assemble : immField (assemble op w (0#1 ++ imm)) = imm := by
  rw [← BitVec.toNat_inj, toNat_immField, toNat_assemble, toNat_zero_append_imm]
  have := imm.isLt
  omega

end Fields

theorem assemble_fields {word : CommandWord} (hres : reservedField word = 0#4) :
    assemble (opField word) (widthField word) (operandField word) = word := by
  rw [reservedField_eq_zero_iff] at hres
  rw [← BitVec.toNat_inj, toNat_assemble, toNat_opField, toNat_widthField, toNat_operandField, opNumber]
  omega

theorem zero_append_immField {word : CommandWord} (h5 : bit5Field word = 0#1) :
    0#1 ++ immField word = operandField word := by
  rw [bit5Field_eq_zero_iff] at h5
  rw [← BitVec.toNat_inj, toNat_zero_append_imm, toNat_immField, toNat_operandField]
  omega

@[simp] theorem widthOf_widthBit (w : Width) : widthOf (widthBit w) = w := by cases w <;> rfl

@[simp] theorem widthBit_widthOf (b : BitVec 1) : widthBit (widthOf b) = b := by revert b; decide

/-! Legal words and well-formed commands -/

/-- The word of a well-formed command decodes to that command. -/
theorem decode_encode (i : Instr) (h : i.wf = true) : decode (encode i) = .ok i := by
  cases i
  case divs w d =>
    have hd : d ≠ 0#5 := by simpa [Instr.wf] using h
    simp [decode, decodeOp, encode, encodeI_eq_assemble, decodeDivs, hd]
  case zero w | ldbe w | stbe w | orlr w | low5 w | isz w | dec w =>
    simp [decode, decodeOp, encode, encodeN_eq_assemble, decodeN]
  case shl w n | shr w n | orli w n => simp [decode, decodeOp, encode, encodeI_eq_assemble, decodeI]
  case b32e p | b32d p => simp [decode, decodeOp, encode, encodeP_eq_assemble, decodeP]
  all_goals simp [decode, decodeOp, encode, encodeM_eq_assemble, decodeM]

section Reassembly

variable {word : CommandWord} {i : Instr} (hres : reservedField word = 0#4)
include hres

theorem encodeN_of_decodeN {c : Width → Instr} (h : decodeN word c = .ok i) :
    ∃ w, i = c w ∧ encodeN (opField word) w = word := by
  rw [decodeN] at h
  split at h
  · cases h
  next hop =>
    refine ⟨_, (Except.ok.inj h).symm, ?_⟩
    rw [encodeN_eq_assemble, widthBit_widthOf, ← not_not.mp hop, assemble_fields hres]

theorem encodeI_of_bit5Field (h5 : bit5Field word = 0#1) :
    encodeI (opField word) (widthOf (widthField word)) (immField word) = word := by
  rw [encodeI_eq_assemble, widthBit_widthOf, zero_append_immField h5, assemble_fields hres]

theorem encodeI_of_decodeI {c : Width → Small → Instr} (h : decodeI word c = .ok i) :
    ∃ w n, i = c w n ∧ encodeI (opField word) w n = word := by
  rw [decodeI] at h
  split at h
  · cases h
  next h5 => exact ⟨_, _, (Except.ok.inj h).symm, encodeI_of_bit5Field hres (not_not.mp h5)⟩

theorem encodeI_of_decodeDivs (h : decodeDivs word = .ok i) :
    ∃ w d, i = .divs w d ∧ d ≠ 0#5 ∧ encodeI (opField word) w d = word := by
  rw [decodeDivs] at h
  split at h
  · cases h
  next h5 =>
    split at h
    · cases h
    next hd => exact ⟨_, _, (Except.ok.inj h).symm, hd, encodeI_of_bit5Field hres (not_not.mp h5)⟩

theorem encodeP_of_decodeP {c : Position → Instr} (h : decodeP word c = .ok i) :
    ∃ p, i = c p ∧ encodeP (opField word) p = word := by
  rw [decodeP] at h
  split at h
  · cases h
  next hw =>
    refine ⟨_, (Except.ok.inj h).symm, ?_⟩
    rw [encodeP_eq_assemble, ← not_not.mp hw, assemble_fields hres]

theorem encodeM_of_decodeM {c : Instr} (h : decodeM word c = .ok i) :
    i = c ∧ encodeM (opField word) = word := by
  rw [decodeM] at h
  split at h
  · cases h
  next hw =>
    split at h
    · cases h
    next hop =>
      refine ⟨(Except.ok.inj h).symm, ?_⟩
      rw [encodeM_eq_assemble]
      conv_rhs => rw [← assemble_fields hres, not_not.mp hw, not_not.mp hop]

/-- Past the reserved bits, the command read from a word is well-formed and its word is the one read. -/
theorem encode_of_decodeOp (h : decodeOp word = .ok i) : i.wf = true ∧ encode i = word := by
  rw [decodeOp] at h
  split at h
  case h_18 => cases h
  all_goals
    rename_i hop
    replace hop := opField_eq_ofNat hop
  case h_1 | h_2 | h_3 | h_7 | h_8 | h_9 | h_11 =>
    obtain ⟨w, rfl, hw⟩ := encodeN_of_decodeN hres h
    exact ⟨rfl, by rwa [hop] at hw⟩
  case h_4 | h_5 | h_6 =>
    obtain ⟨w, n, rfl, hw⟩ := encodeI_of_decodeI hres h
    exact ⟨rfl, by rwa [hop] at hw⟩
  case h_10 =>
    obtain ⟨w, d, rfl, hd, hw⟩ := encodeI_of_decodeDivs hres h
    exact ⟨by simpa [Instr.wf] using hd, by rwa [hop] at hw⟩
  case h_12 | h_13 =>
    obtain ⟨p, rfl, hw⟩ := encodeP_of_decodeP hres h
    exact ⟨rfl, by rwa [hop] at hw⟩
  case h_14 | h_15 | h_16 | h_17 =>
    obtain ⟨rfl, hw⟩ := encodeM_of_decodeM hres h
    exact ⟨rfl, by rwa [hop] at hw⟩

end Reassembly

/-- A legal word is the word of the well-formed command it decodes to. -/
theorem encode_of_decode {word : CommandWord} {i : Instr} (h : decode word = .ok i) :
    i.wf = true ∧ encode i = word := by
  rw [decode] at h
  split at h
  · cases h
  next hres => exact encode_of_decodeOp (not_not.mp hres) h

/-! The count -/

/-- Every value of a bit vector, in order. -/
def allValues (n : Nat) : List (BitVec n) := (List.range (2 ^ n)).map (BitVec.ofNat n)

theorem mem_allValues {n : Nat} (v : BitVec n) : v ∈ allValues n :=
  List.mem_map.mpr ⟨v.toNat, List.mem_range.mpr v.isLt, by simp⟩

/-- The two terms of a row without an operand (30_encoding.md R47), W = 128 first. -/
def termsN (c : Width → Instr) : List Instr := [c .w128, c .w256]

theorem mem_termsN (c : Width → Instr) (w : Width) : c w ∈ termsN c := by cases w <;> simp [termsN]

/-- The terms of a row with an immediate (30_encoding.md R48), W = 128 first. -/
def termsI (c : Width → Small → Instr) : List Instr := (allValues 5).map (c .w128) ++ (allValues 5).map (c .w256)

theorem mem_termsI (c : Width → Small → Instr) (w : Width) (n : Small) : c w n ∈ termsI c := by
  have hn := List.mem_map_of_mem (f := c w) (mem_allValues n)
  cases w
  · exact List.mem_append_left _ hn
  · exact List.mem_append_right _ hn

/-- The terms of a row with a buffer position (30_encoding.md R49). -/
def termsP (c : Position → Instr) : List Instr := (allValues 6).map c

theorem mem_termsP (c : Position → Instr) (p : Position) : c p ∈ termsP c := List.mem_map_of_mem (mem_allValues p)

/-- Every command term, row by row of 30_encoding.md R52. -/
def commandTerms : List Instr :=
  termsN .zero ++ termsN .ldbe ++ termsN .stbe ++ termsI .shl ++ termsI .shr ++ termsI .orli ++ termsN .orlr
  ++ termsN .low5 ++ termsN .isz ++ termsI .divs ++ termsN .dec ++ termsP .b32e ++ termsP .b32d
  ++ [.accenc, .accdec, .baldec, .balenc]

theorem mem_commandTerms (i : Instr) : i ∈ commandTerms := by
  cases i
  case zero w | ldbe w | stbe w | orlr w | low5 w | isz w | dec w => simp [commandTerms, mem_termsN]
  case shl w n | shr w n | orli w n | divs w n => simp [commandTerms, mem_termsI]
  case b32e p | b32d p => simp [commandTerms, mem_termsP]
  all_goals simp [commandTerms]

/-- The commands that have a word. -/
def wellFormedCommands : List Instr := commandTerms.filter Instr.wf

theorem mem_wellFormedCommands (i : Instr) : i ∈ wellFormedCommands ↔ i.wf = true := by
  simp [wellFormedCommands, mem_commandTerms]

theorem wellFormedCommands_sorted : (wellFormedCommands.map fun i => (encode i).toNat).SortedLT :=
  List.IsChain.sortedLT (by decide +kernel)

theorem wellFormedCommands_length : wellFormedCommands.length = 400 := by decide +kernel

/-- The legal words are, in order, those of the well-formed commands. -/
theorem legalNumbers_eq :
    (List.range 65536).filter (fun n => (decode (BitVec.ofNat 16 n)).isOk)
      = wellFormedCommands.map (fun i => (encode i).toNat) := by
  refine ((List.sortedLT_range 65536).pairwise.filter _).sortedLT.eq_of_mem_iff wellFormedCommands_sorted fun n => ?_
  simp only [List.mem_filter, List.mem_range, List.mem_map, mem_wellFormedCommands]
  constructor
  · rintro ⟨hn, hok⟩
    cases hd : decode (BitVec.ofNat 16 n) with
    | error e => rw [hd] at hok; cases hok
    | ok i =>
      obtain ⟨hi, hw⟩ := encode_of_decode hd
      exact ⟨i, hi, by rw [hw, BitVec.toNat_ofNat, Nat.mod_eq_of_lt hn]⟩
  · rintro ⟨i, hi, rfl⟩
    exact ⟨(encode i).isLt, by rw [BitVec.ofNat_toNat, BitVec.setWidth_eq, decode_encode i hi]; rfl⟩

/-! The obligation -/

/-- Settles O3: the step is `step_of_issue_illegal`, and the count is that of the well-formed commands. -/
theorem illegalWordsAreThoseOfTheSixClauses : Obligations.IllegalWordsAreThoseOfTheSixClauses := by
  refine ⟨decode_refuses_iff, fun s word rest hill h => ?step, by decide, by decide, ?count⟩
  case step =>
    obtain ⟨e, he⟩ := (decode_refuses_iff word).mpr hill
    refine ⟨_, step_of_issue_illegal h he, rfl, rfl, rfl, ?_⟩
    rw [State.setErr_setPending]
    exact (keepsAllBut_setErr s _).append (keepsAllBut_setPending_setReply _ rest _)
  case count => rw [legalNumbers_eq, List.length_map, wellFormedCommands_length]

end Sys2Proof.Machine
end

section
/-! The fixed-width integer commands of 40_fixedwidth.md. A command that completes writes one or two pieces and ERR, so
its effect is read off the state it hands to `complete`; what is left is one fact about the value it writes. -/

namespace Sys2Proof.Machine

/-! The words of 30_encoding.md R52 -/

theorem toNat_widthBit (w : Width) : (widthBit w).toNat * 2 ^ 10 = if w = .w256 then 0x0400 else 0 := by
  cases w <;> rfl

/-- The opcode, the width and the operand of a word occupy different bits, so the sum of R52 is their concatenation. -/
theorem tableWord_eq_assemble (op : BitVec 5) (w : Width) (operand : Position) :
    tableWord (op.toNat * 2 ^ 11) w operand.toNat = assemble op (widthBit w) operand := by
  rw [tableWord, ← toNat_widthBit, ← toNat_assemble, BitVec.ofNat_toNat, BitVec.setWidth_eq]

theorem tableWord_eq_encodeN (op : BitVec 5) (w : Width) : tableWord (op.toNat * 2 ^ 11) w 0 = encodeN op w :=
  tableWord_eq_assemble op w 0#6

theorem tableWord_eq_encodeI (op : BitVec 5) (w : Width) (imm : Small) :
    tableWord (op.toNat * 2 ^ 11) w imm.toNat = encodeI op w imm := by
  rw [encodeI_eq_assemble, ← tableWord_eq_assemble, toNat_zero_append_imm]

/-- A table word that is a well-formed command's encoding decodes to that command. -/
theorem decode_of_eq_encode {word : CommandWord} {i : Instr} (hword : word = encode i) (hi : i.wf = true) :
    decode word = .ok i := hword ▸ decode_encode i hi

/-! How a command ends -/

theorem fails_of_raise {i : Instr} {s : State} {k : ErrorKind} (h : exec i s = raise k s) : Fails k i s :=
  ⟨s.setErr k.code, h.trans (raise_eq k s), State.setErr_err s _, keepsAllBut_setErr s _⟩

/-- HostIssue of a word that no command has is error entry with IllegalCommand (60_exceptions.md R108). -/
theorem hostIssue_of_refused {word : CommandWord} {e : DecodeError} (s : State) (he : decode word = .error e) :
    hostIssue word s = .next ((s.setErr ErrorKind.illegalCommand.code).setReply
      (.err ErrorKind.illegalCommand.code)) := by
  simp only [hostIssue, he, raise_eq, answerErr, State.setErr_err]

/-- Success adds ERR to what the command itself changed (60_exceptions.md R109). -/
theorem KeepsAllBut.setErr {changed : List Part} {s u : State} (h : KeepsAllBut changed s u) (e : BitVec 3) :
    KeepsAllBut (changed ++ [.err]) s (u.setErr e) := h.append (keepsAllBut_setErr u e)

/-- A command that completes with a new accumulator changes that accumulator and ERR. -/
theorem completes_of_setAcc {i : Instr} {s : State} {w : Width} {v : BitVec w.bits}
    (h : exec i s = complete (s.setAcc w v)) :
    ∃ t, exec i s = .next t ∧ t.acc w = v ∧ t.err = 0#3 ∧ KeepsAllBut [accPart w, .err] s t :=
  ⟨(s.setAcc w v).setErr 0#3, h.trans (complete_eq _), by simp, State.setErr_err _ _,
    (keepsAllBut_setAcc s w v).setErr 0#3⟩

/-! The two byte commands -/

theorem exec_ldbe_of_length {s : State} {w : Width} (h : s.ilen.toNat = w.bytes) :
    exec (.ldbe w) s = complete (s.setAcc w (loadBigEndian w.bits (s.ibuf.readRange 0 w.bytes))) := by
  rw [exec, execLdbe, if_neg (not_not.mpr h)]

theorem exec_ldbe_of_wrong_length {s : State} {w : Width} (h : s.ilen.toNat ≠ w.bytes) :
    exec (.ldbe w) s = raise .invalidLength s := by
  rw [exec, execLdbe, if_pos h]

/-- W/8 bytes fill a W-bit value exactly (20_memory.md R37). -/
theorem pow_bytes_eq_pow_bits (w : Width) : 256 ^ w.bytes = 2 ^ w.bits := by cases w <;> rfl

/-- What LDBE.W loads does not overflow the accumulator. -/
theorem toNat_loadBigEndian_readRange (m : Memory) (w : Width) :
    (loadBigEndian w.bits (m.readRange 0 w.bytes)).toNat = bigEndianValue (m.readRange 0 w.bytes) :=
  toNat_loadBigEndian _ (by rw [Memory.readRange_length, pow_bytes_eq_pow_bits])

theorem Memory.readRange_getD {m : Memory} {n i : Nat} (h : i < n) : (m.readRange 0 n).getD i 0#8 = m.read i := by
  rw [List.getD_eq_getElem _ _ (by simpa using h), Memory.readRange_getElem, Nat.zero_add]

/-- Each byte of the loaded range is the digit of the loaded value at its place. -/
theorem loadBigEndian_readRange_digit (m : Memory) (w : Width) {i : Nat} (h : i < w.bytes) :
    (loadBigEndian w.bits (m.readRange 0 w.bytes)).toNat / 256 ^ (w.bytes - 1 - i) % 256 = (m.read i).toNat := by
  have hdigit := bigEndianValue_digit (m.readRange 0 w.bytes) i (by simpa using h)
  rwa [Memory.readRange_length, Memory.readRange_getD h, ← toNat_loadBigEndian_readRange] at hdigit

/-- What LDBE.W leaves in the accumulator when the length is right. -/
theorem acc_of_exec_ldbe {u v : State} {w : Width} (hlen : u.ilen.toNat = w.bytes)
    (h : exec (.ldbe w) u = .next v) : v.acc w = loadBigEndian w.bits (u.ibuf.readRange 0 w.bytes) := by
  obtain ⟨t, ht, hacc, -⟩ := completes_of_setAcc (exec_ldbe_of_length hlen)
  obtain rfl : t = v := Host.Outcome.next.inj (ht.symm.trans h)
  exact hacc

/-- OBUF after a big-endian store, byte by byte inside the W/8 bytes. -/
theorem read_emit_storeBigEndian (s : State) (w : Width) (v : BitVec w.bits) {i : Nat} (h : i < w.bytes) :
    ((s.emit (storeBigEndian w.bytes v)).obuf.read i).toNat = v.toNat / 256 ^ (w.bytes - 1 - i) % 256 := by
  rw [read_emit, storeBigEndian_length, if_pos h, storeBigEndian_getD _ _ _ h]

theorem toNat_ofNat_bytes (w : Width) : (BitVec.ofNat 8 w.bytes).toNat = w.bytes := by cases w <;> rfl

/-! The OR into the low five bits -/

theorem five_le_bits (w : Width) : 5 ≤ w.bits := by cases w <;> decide

/-- A small integer has no bits above bit 4, so the OR keeps those of the value. -/
theorem toNat_orLow_div {W : Nat} (hW : 5 ≤ W) (v : BitVec W) (x : Small) :
    (orLow v x).toNat / 32 = v.toNat / 32 := by
  have hx : x.toNat / 2 ^ 5 = 0 := Nat.div_eq_of_lt x.isLt
  rw [toNat_orLow hW, show 32 = 2 ^ 5 from rfl, Nat.or_div_two_pow, hx, Nat.or_zero]

theorem toNat_orLow_mod_of_zero {W : Nat} (hW : 5 ≤ W) (v : BitVec W) (x : Small) (hv : v.toNat % 32 = 0) :
    (orLow v x).toNat % 32 = x.toNat := by
  have hx : x.toNat % 2 ^ 5 = x.toNat := Nat.mod_eq_of_lt x.isLt
  rw [show 32 = 2 ^ 5 from rfl] at hv ⊢
  rw [toNat_orLow hW, Nat.or_mod_two_pow, hv, hx, Nat.zero_or]

/-- ORLI and ORLR differ only in where the small integer comes from (40_fixedwidth.md R66, R67). -/
theorem completes_of_orLow {i : Instr} {s : State} {w : Width} {x : Small}
    (h : exec i s = complete (s.setAcc w (orLow (s.acc w) x))) :
    ∃ t, exec i s = .next t ∧ (t.acc w).toNat = (s.acc w).toNat ||| x.toNat
      ∧ (t.acc w).toNat / 32 = (s.acc w).toNat / 32
      ∧ ((s.acc w).toNat % 32 = 0 → (t.acc w).toNat % 32 = x.toNat)
      ∧ t.err = 0#3 ∧ KeepsAllBut [accPart w, .err] s t := by
  have hw := five_le_bits w
  obtain ⟨t, ht, hacc, herr, hframe⟩ := completes_of_setAcc h
  refine ⟨t, ht, ?_⟩
  rw [hacc]
  exact ⟨toNat_orLow hw _ x, toNat_orLow_div hw _ x, toNat_orLow_mod_of_zero hw _ x, herr, hframe⟩

/-! The zero test and the division -/

/-- `isZero` looks at every bit of the value. -/
theorem isZero_iff_bits {W : Nat} (v : BitVec W) : isZero v = true ↔ ∀ k, k < W → v.getLsbD k = false := by
  rw [isZero_iff, toNat_eq_zero_iff]
  constructor
  · rintro rfl k -
    exact BitVec.getLsbD_zero
  · intro h
    exact BitVec.eq_of_getLsbD_eq fun k hk => by rw [h k hk, BitVec.getLsbD_zero]

theorem exec_divs_of_ne {s : State} {w : Width} {d : Small} (hd : d ≠ 0#5) :
    exec (.divs w d) s = complete ((s.setAcc w (divSmall (s.acc w) d).1).setR (divSmall (s.acc w) d).2) := by
  rw [exec, execDivs, if_neg hd]

theorem exec_divs_zero (s : State) (w : Width) : exec (.divs w 0#5) s = raise .illegalCommand s := by
  rw [exec, execDivs, if_pos rfl]

/-- DIVS with a zero immediate is a word of clause (f) of 30_encoding.md R53. -/
theorem illegalWord_divs_zero (w : Width) : IllegalWord (tableWord 0x5000 w 0) := by cases w <;> decide

/-! The obligations -/

/-- Settles O26. -/
theorem zeroClearsTheSelectedAccumulator : Obligations.ZeroClearsTheSelectedAccumulator := by
  intro w s
  obtain ⟨t, ht, hacc, herr, hframe⟩ := completes_of_setAcc (i := .zero w) (s := s) rfl
  have hzero : (t.acc w).toNat = 0 := by rw [hacc, BitVec.toNat_ofNat, Nat.zero_mod]
  exact ⟨decode_of_eq_encode (tableWord_eq_encodeN 0x01#5 w) rfl, t, ht, hzero, herr, hframe⟩

/-- Settles O27: the loaded value is the big-endian value of the range, which W bits hold. -/
theorem ldbeLoadsExactlyWBitsBigEndian : Obligations.LdbeLoadsExactlyWBitsBigEndian := by
  intro w s
  refine ⟨decode_of_eq_encode (tableWord_eq_encodeN 0x02#5 w) rfl, fun hlen => ?loads,
    fun hlen => fails_of_raise (exec_ldbe_of_wrong_length hlen)⟩
  case loads =>
    obtain ⟨t, ht, hacc, herr, hframe⟩ := completes_of_setAcc (exec_ldbe_of_length hlen)
    refine ⟨t, ht, ?_, herr, hframe⟩
    rw [hacc, toNat_loadBigEndian_readRange, bigEndianValue_readRange]
    simp only [Nat.zero_add]

/-- Settles O28: each stored byte is a digit of the accumulator, and the digits of what LDBE.W loaded are the bytes it
loaded. -/
theorem stbeStoresExactlyWBitsBigEndian : Obligations.StbeStoresExactlyWBitsBigEndian := by
  intro w s
  refine ⟨decode_of_eq_encode (tableWord_eq_encodeN 0x03#5 w) rfl,
    (s.emit (storeBigEndian w.bytes (s.acc w))).setErr 0#3, complete_eq _, ?_⟩
  simp only [State.setErr_obuf, State.setErr_olen]
  refine ⟨fun i hi => read_emit_storeBigEndian s w _ hi, fun k hk => ?kept, ?length, State.setErr_err _ _,
    (keepsAllBut_emit s _).setErr 0#3, fun u v hlen hload hacc i hi => ?law⟩
  case kept => rw [read_emit, storeBigEndian_length, if_neg (Nat.not_lt.mpr hk)]
  case length => rw [State.emit_olen, storeBigEndian_length, toNat_ofNat_bytes]
  case law =>
    apply BitVec.eq_of_toNat_eq
    rw [read_emit_storeBigEndian s w _ hi, hacc, acc_of_exec_ldbe hlen hload, loadBigEndian_readRange_digit _ w hi]

/-- Settles O29. -/
theorem shlDiscardsTheBitsShiftedOut : Obligations.ShlDiscardsTheBitsShiftedOut := by
  intro w n s
  obtain ⟨t, ht, hacc, herr, hframe⟩ := completes_of_setAcc (i := .shl w n) (s := s) rfl
  refine ⟨decode_of_eq_encode (tableWord_eq_encodeI 0x04#5 w n) rfl, t, ht, ?_, herr, hframe⟩
  rw [hacc, toNat_shiftLeft]

/-- Settles O30. -/
theorem shrBringsZerosInAtTheTop : Obligations.ShrBringsZerosInAtTheTop := by
  intro w n s
  obtain ⟨t, ht, hacc, herr, hframe⟩ := completes_of_setAcc (i := .shr w n) (s := s) rfl
  refine ⟨decode_of_eq_encode (tableWord_eq_encodeI 0x05#5 w n) rfl, t, ht, ?_, herr, hframe⟩
  rw [hacc, toNat_shiftRight]

/-- Settles O31. -/
theorem orliOrsIntoTheLowFiveBits : Obligations.OrliOrsIntoTheLowFiveBits := fun w x _ =>
  ⟨decode_of_eq_encode (tableWord_eq_encodeI 0x06#5 w x) rfl, completes_of_orLow (i := .orli w x) rfl⟩

/-- Settles O32: the small integer is R. -/
theorem orlrOrsRegisterRIntoTheLowFiveBits : Obligations.OrlrOrsRegisterRIntoTheLowFiveBits := fun w _ =>
  ⟨decode_of_eq_encode (tableWord_eq_encodeN 0x07#5 w) rfl, completes_of_orLow (i := .orlr w) rfl⟩

/-- Settles O33. -/
theorem lowFiveReadsTheLowestFiveBits : Obligations.LowFiveReadsTheLowestFiveBits := by
  intro w s
  refine ⟨decode_of_eq_encode (tableWord_eq_encodeN 0x08#5 w) rfl,
    (s.setR (lowestFive (s.acc w))).setErr 0#3, complete_eq _, ?_, State.setErr_err _ _,
    (keepsAllBut_setR s _).setErr 0#3⟩
  rw [State.setErr_r, State.setR_r, toNat_lowestFive]

/-- Settles O34. -/
theorem iszTestsTheWholeAccumulator : Obligations.IszTestsTheWholeAccumulator := by
  intro w s
  refine ⟨decode_of_eq_encode (tableWord_eq_encodeN 0x09#5 w) rfl,
    (s.setZ (isZero (s.acc w))).setErr 0#3, complete_eq _, ?_, State.setErr_err _ _,
    (keepsAllBut_setZ s _).setErr 0#3⟩
  rw [State.setErr_z, State.setZ_z, isZero_iff_bits]

/-- Settles O35: for a divisor that is not 0 the two results are the quotient and the remainder of naturals; the word
with divisor 0 is refused by the decoder, and the term raises the same kind. -/
theorem divsGivesQuotientAndRemainder : Obligations.DivsGivesQuotientAndRemainder := by
  intro w s
  refine ⟨fun d hd => ?divides, illegalWord_divs_zero w, ?issued, fails_of_raise (exec_divs_zero s w)⟩
  case divides =>
    have hpos : 0 < d.toNat := Nat.pos_of_ne_zero fun h => hd ((toNat_eq_zero_iff d).mp h)
    have hdecode : decode (tableWord 0x5000 w d.toNat) = .ok (.divs w d) :=
      decode_of_eq_encode (tableWord_eq_encodeI 0x0A#5 w d) (by simpa [Instr.wf] using hd)
    refine ⟨hdecode, _, (exec_divs_of_ne hd).trans (complete_eq _), ?_⟩
    simp only [State.setErr_acc, State.setErr_r, State.setR_acc, State.setR_r, State.setAcc_acc, toNat_divSmall_fst,
      toNat_divSmall_snd _ d hd, true_and]
    exact ⟨Nat.div_add_mod' _ _, Nat.le_sub_one_of_lt (Nat.mod_lt _ hpos), State.setErr_err _ _,
      ((keepsAllBut_setAcc s w _).append (keepsAllBut_setR _ _)).setErr 0#3⟩
  case issued =>
    obtain ⟨e, he⟩ := (decode_refuses_iff _).mpr (illegalWord_divs_zero w)
    exact ⟨_, hostIssue_of_refused s he, rfl, (keepsAllBut_setErr s _).append (keepsAllBut_setReply _ _)⟩

end Sys2Proof.Machine
end

section
/-! The decimal renderer of 41_decimal.md. What DEC.W leaves in OBUF is one predicate, `RendersDecimal`: the statements
of R80 and R81 follow from it by arithmetic alone, and R82 compares it with what rounds of primitives compute. -/

namespace Sys2Proof.Machine

/-! What a rendered string is -/

/-- The first n bytes of a buffer are the decimal string of v: n is the least number of divisions by ten, at least one,
that leaves 0, and the remainder of division i stands i places from the right end (41_decimal.md R80). -/
structure RendersDecimal (v : Nat) (m : Memory) (n : Nat) : Prop where
  length_pos : 1 ≤ n
  exhausted : v / 10 ^ n = 0
  unfinished : ∀ j, 1 ≤ j → j < n → v / 10 ^ j ≠ 0
  digit : ∀ i, i < n → (m.read (n - 1 - i)).toNat = 0x30 + v / 10 ^ i % 10

theorem acc_lt_pow_maxDecimalDigits (w : Width) (v : BitVec w.bits) : v.toNat < 10 ^ maxDecimalDigits w := by
  have hpow : 2 ^ w.bits ≤ 10 ^ maxDecimalDigits w := by cases w <;> decide
  exact lt_of_lt_of_le v.isLt hpow

theorem maxDecimalDigits_le_obufSize (w : Width) : maxDecimalDigits w ≤ Config.obufSize := by cases w <;> decide

/-- OLEN holds the length of a decimal string whole. -/
theorem toNat_olen_emit_decimalString (s : State) (w : Width) (v : BitVec w.bits) :
    (s.emit (decimalString w v)).olen.toNat = (decimalString w v).length := by
  have hlen := (decimalString_length_le w v).trans (maxDecimalDigits_le_obufSize w)
  rw [State.emit_olen, BitVec.toNat_ofNat]
  exact Nat.mod_eq_of_lt (lt_of_le_of_lt hlen (by decide))

/-- The string is the loop's digits in reverse: the byte i places from its right end is the loop's digit i. -/
theorem decimalString_getD (w : Width) (v : BitVec w.bits) {i : Nat} (hi : i < (decimalString w v).length) :
    (decimalString w v).getD ((decimalString w v).length - 1 - i) 0#8
      = (decimalLoop (maxDecimalDigits w) v).getD i 0#8 := by
  simp only [decimalString, List.length_reverse] at hi ⊢
  rw [List.getD_eq_getElem _ _ (by rw [List.length_reverse]; omega), List.getD_eq_getElem _ _ hi, List.getElem_reverse]
  congr 1
  omega

/-- The loop's bound cuts no value short, so what is emitted is the value's decimal string. -/
theorem rendersDecimal_emit_decimalString (s : State) (w : Width) (v : BitVec w.bits) :
    RendersDecimal v.toNat (s.emit (decimalString w v)).obuf (s.emit (decimalString w v)).olen.toNat := by
  obtain ⟨hpos, hdone, hmore, hdigit⟩ :=
    decimalLoop_spec (maxDecimalDigits w) v (by cases w <;> decide) (acc_lt_pow_maxDecimalDigits w v)
  have hlen : (decimalString w v).length = (decimalLoop (maxDecimalDigits w) v).length := List.length_reverse
  rw [toNat_olen_emit_decimalString]
  rw [← hlen] at hpos hdone hmore hdigit
  refine ⟨hpos, hdone, hmore, fun i hi => ?_⟩
  rw [read_emit, if_pos (by omega), decimalString_getD w v hi, hdigit i hi]

/-- A frame that leaves out the selected accumulator keeps it. -/
theorem KeepsAllBut.acc_eq {changed : List Part} {s t : State} (h : KeepsAllBut changed s t) {w : Width}
    (hw : accPart w ∉ changed) : t.acc w = s.acc w := by
  cases w
  · exact h .a128 hw
  · exact h .a256 hw

/-- DEC.W completes in every state, with the accumulator's decimal string and nothing else changed. -/
theorem exec_dec_renders (w : Width) (s : State) :
    ∃ t, exec (.dec w) s = .next t ∧ RendersDecimal (s.acc w).toNat t.obuf t.olen.toNat
      ∧ t.olen.toNat ≤ maxDecimalDigits w ∧ (∀ k, t.olen.toNat ≤ k → t.obuf.read k = s.obuf.read k)
      ∧ t.err = 0#3 ∧ KeepsAllBut [.obuf, .olen, .err] s t := by
  have hlen := toNat_olen_emit_decimalString s w (s.acc w)
  refine ⟨(s.emit (decimalString w (s.acc w))).setErr 0#3, complete_eq _, ?_⟩
  simp only [State.setErr_obuf, State.setErr_olen]
  refine ⟨rendersDecimal_emit_decimalString s w _, hlen ▸ decimalString_length_le w _, fun k hk => ?_,
    State.setErr_err _ _, (keepsAllBut_emit s _).setErr 0#3⟩
  rw [read_emit, if_neg (by omega)]

/-! The string denotes the value -/

/-- The n lowest decimal digits of v, each at its weight, are the value of v modulo 10^n. -/
theorem sum_decimal_digits (v n : Nat) : ∑ i ∈ Finset.range n, v / 10 ^ i % 10 * 10 ^ i = v % 10 ^ n := by
  induction n with
  | zero => rw [Finset.sum_range_zero, pow_zero, Nat.mod_one]
  | succ n ih => rw [Finset.sum_range_succ, ih, Nat.mod_pow_succ, Nat.mul_comm (10 ^ n)]

namespace RendersDecimal

variable {v n : Nat} {m : Memory}

theorem lt_pow (h : RendersDecimal v m n) : v < 10 ^ n :=
  (Nat.div_eq_zero_iff.mp h.exhausted).resolve_left (by positivity)

/-- The byte at a place counted from the left end. -/
theorem toNat_read (h : RendersDecimal v m n) {i : Nat} (hi : i < n) :
    (m.read i).toNat = 0x30 + v / 10 ^ (n - 1 - i) % 10 := by
  have hdigit := h.digit (n - 1 - i) (by omega)
  rwa [Nat.sub_sub_self (by omega)] at hdigit

/-- 41_decimal.md R81 (a). -/
theorem read_is_digit (h : RendersDecimal v m n) {i : Nat} (hi : i < n) :
    0x30 ≤ (m.read i).toNat ∧ (m.read i).toNat ≤ 0x39 := by
  rw [h.toNat_read hi]
  omega

/-- 41_decimal.md R81 (b): counted from the right end, the bytes are the value's digits at their weights. -/
theorem sum_eq (h : RendersDecimal v m n) :
    ∑ i ∈ Finset.range n, ((m.read i).toNat - 0x30) * 10 ^ (n - 1 - i) = v := by
  calc ∑ i ∈ Finset.range n, ((m.read i).toNat - 0x30) * 10 ^ (n - 1 - i)
      = ∑ i ∈ Finset.range n, v / 10 ^ (n - 1 - i) % 10 * 10 ^ (n - 1 - i) :=
        Finset.sum_congr rfl fun i hi => by rw [h.toNat_read (Finset.mem_range.mp hi), Nat.add_sub_cancel_left]
    _ = ∑ i ∈ Finset.range n, v / 10 ^ i % 10 * 10 ^ i :=
        Finset.sum_range_reflect (fun i => v / 10 ^ i % 10 * 10 ^ i) n
    _ = v % 10 ^ n := sum_decimal_digits v n
    _ = v := Nat.mod_eq_of_lt h.lt_pow

/-- The highest power of ten below 10^n is within a value that is not 0. -/
theorem pow_le (h : RendersDecimal v m n) (hv : v ≠ 0) : 10 ^ (n - 1) ≤ v := by
  have hpos := h.length_pos
  rcases Nat.eq_or_lt_of_le hpos with rfl | hn
  · exact Nat.one_le_iff_ne_zero.mpr hv
  · have hmore := h.unfinished (n - 1) (by omega) (by omega)
    exact Nat.le_of_not_lt fun hlt => hmore (Nat.div_eq_of_lt hlt)

/-- The leftmost byte holds the last quotient before 0, which is a single digit. -/
theorem toNat_read_zero (h : RendersDecimal v m n) : (m.read 0).toNat = 0x30 + v / 10 ^ (n - 1) := by
  have hpos := h.length_pos
  have hlt : v / 10 ^ (n - 1) < 10 :=
    Nat.div_lt_of_lt_mul (by rw [← pow_succ, Nat.sub_add_cancel hpos]; exact h.lt_pow)
  rw [h.toNat_read hpos, Nat.sub_zero, Nat.mod_eq_of_lt hlt]

/-- 41_decimal.md R81 (c), (d) for 0. -/
theorem of_zero (h : RendersDecimal v m n) (hv : v = 0) : m.read 0 = 0x30#8 ∧ n = 1 := by
  subst hv
  refine ⟨BitVec.eq_of_toNat_eq (by rw [h.toNat_read_zero, Nat.zero_div]; rfl), ?_⟩
  exact Nat.le_antisymm (Nat.le_of_not_lt fun hn => h.unfinished 1 le_rfl hn (Nat.zero_div _)) h.length_pos

/-- 41_decimal.md R81 (c), (d) for any other value. -/
theorem of_ne_zero (h : RendersDecimal v m n) (hv : v ≠ 0) : m.read 0 ≠ 0x30#8 ∧ n = Nat.log 10 v + 1 := by
  have hle := h.pow_le hv
  have hn := Nat.sub_add_cancel h.length_pos
  refine ⟨fun hread => ?_, ?_⟩
  · have hquot : 1 ≤ v / 10 ^ (n - 1) := Nat.div_pos hle (by positivity)
    have hzero : (m.read 0).toNat = 0x30 := by rw [hread]; rfl
    rw [h.toNat_read_zero] at hzero
    omega
  · rw [Nat.log_eq_of_pow_le_of_lt_pow hle (by rw [hn]; exact h.lt_pow), hn]

/-- Division number j + 1 leaves 0 exactly when it is the one of the leftmost byte. -/
theorem quotient_eq_zero_iff (h : RendersDecimal v m n) {j : Nat} (hj : j < n) :
    v / 10 ^ (j + 1) = 0 ↔ j + 1 = n := by
  constructor
  · intro hzero
    by_contra hne
    exact h.unfinished (j + 1) (by omega) (by omega) hzero
  · rintro rfl
    exact h.exhausted

end RendersDecimal

/-! Rounds of DIVS.W 10 and ISZ.W -/

theorem execAll_cons {i : Instr} {s t : State} (h : exec i s = .next t) (cs : List Instr) :
    execAll (i :: cs) s = execAll cs t := by
  rw [execAll, h]

/-- A run over two lists is a run over the second from where the first ended (20_memory.md R41). -/
theorem execAll_append {cs : List Instr} {s t : State} (h : execAll cs s = .next t) (ds : List Instr) :
    execAll (cs ++ ds) s = execAll ds t := by
  induction cs generalizing s with
  | nil =>
    obtain rfl : s = t := Host.Outcome.next.inj h
    rfl
  | cons i cs ih =>
    obtain ⟨u, hu⟩ := exec_completes i s
    rw [execAll_cons hu] at h
    rw [List.cons_append, execAll_cons hu, ih h]

/-- What DIVS.W 10 and ISZ.W leave in u when the accumulator held v: the quotient, its remainder in R, and in Z whether
the quotient is 0 (41_decimal.md R82). -/
structure DividedByTen (v : Nat) (w : Width) (u : State) : Prop where
  acc_eq : (u.acc w).toNat = v / 10
  r_eq : u.r.toNat = v % 10
  z_iff : u.z = true ↔ v / 10 = 0

theorem exec_divs_ten (w : Width) (s : State) :
    exec (.divs w 10#5) s =
      .next (((s.setAcc w (divSmall (s.acc w) 10#5).1).setR (divSmall (s.acc w) 10#5).2).setErr 0#3) :=
  (exec_divs_of_ne (by decide)).trans (complete_eq _)

theorem exec_isz (w : Width) (s : State) : exec (.isz w) s = .next ((s.setZ (isZero (s.acc w))).setErr 0#3) :=
  complete_eq _

/-- One round: the division replaces the accumulator and R, and the zero test looks at the new accumulator. -/
theorem execAll_round (w : Width) (s : State) :
    ∃ u, execAll [.divs w 10#5, .isz w] s = .next u ∧ DividedByTen (s.acc w).toNat w u := by
  have hquot : (divSmall (s.acc w) 10#5).1.toNat = (s.acc w).toNat / 10 := toNat_divSmall_fst _ _
  have hrem : (divSmall (s.acc w) 10#5).2.toNat = (s.acc w).toNat % 10 := toNat_divSmall_snd _ _ (by decide)
  refine ⟨_, (execAll_cons (exec_divs_ten w s) _).trans (execAll_cons (exec_isz w _) []), ?_, ?_, ?_⟩
  · simp only [State.setErr_acc, State.setZ_acc, State.setR_acc, State.setAcc_acc, hquot]
  · simp only [State.setErr_r, State.setZ_r, State.setR_r, hrem]
  · simp only [State.setErr_z, State.setZ_z, State.setErr_acc, State.setR_acc, State.setAcc_acc, isZero_iff, hquot]

/-- After j + 1 rounds the state is that of one round on what j divisions leave. -/
theorem execAll_rounds (w : Width) (s : State) (j : Nat) :
    ∃ u, execAll (List.replicate (j + 1) [.divs w 10#5, .isz w]).flatten s = .next u
      ∧ DividedByTen ((s.acc w).toNat / 10 ^ j) w u := by
  induction j generalizing s with
  | zero => simpa using execAll_round w s
  | succ j ih =>
    obtain ⟨t, ht, hround⟩ := execAll_round w s
    obtain ⟨u, hu, hrest⟩ := ih t
    rw [hround.acc_eq, Nat.div_div_eq_div_mul, ← pow_succ'] at hrest
    refine ⟨u, ?_, hrest⟩
    rw [List.replicate_succ, List.flatten_cons, execAll_append ht, hu]

/-! The obligations -/

/-- Settles O38: the string is that of `exec_dec_renders`. -/
theorem decRendersTheAccumulatorInDecimal : Obligations.DecRendersTheAccumulatorInDecimal := by
  intro w s
  obtain ⟨t, ht, hstr, -, hkept, herr, hframe⟩ := exec_dec_renders w s
  exact ⟨decode_of_eq_encode (tableWord_eq_encodeN 0x0B#5 w) rfl, t, ht, hstr.length_pos, hstr.exhausted,
    hstr.unfinished, hstr.digit, hkept, herr, hframe⟩

/-- Settles O39: each clause is a consequence of `RendersDecimal`, and the bounds are those of the loop. -/
theorem decimalStringDenotesTheValue : Obligations.DecimalStringDenotesTheValue := by
  intro w s
  obtain ⟨t, ht, hstr, hmax, -⟩ := exec_dec_renders w s
  refine ⟨t, ht, fun i hi => hstr.read_is_digit hi, hstr.sum_eq, hstr.of_zero, hstr.of_ne_zero, ?_, ?_, hstr.exhausted,
    hstr.unfinished⟩
  · rintro rfl
    exact hmax
  · rintro rfl
    exact hmax

/-- Settles O40: round j leaves the remainder that DEC.W writes j places from the right end, and the quotient is 0 first
in the round of the leftmost byte. -/
theorem decEqualsRoundsOfDivideByTen : Obligations.DecEqualsRoundsOfDivideByTen := by
  intro w s
  obtain ⟨t, ht, hstr, -, -, -, hframe⟩ := exec_dec_renders w s
  refine ⟨t, ht, hframe.acc_eq (by cases w <;> decide), hframe .r (by decide), hframe .z (by decide), fun j hj => ?_⟩
  obtain ⟨u, hu, hacc, hr, hz⟩ := execAll_rounds w s j
  rw [Nat.div_div_eq_div_mul, ← pow_succ] at hacc hz
  refine ⟨u, hu, ?_, hz.trans (hstr.quotient_eq_zero_iff hj), fun h => hacc.trans (hz.mp h)⟩
  rw [hstr.digit j hj, hr]

end Sys2Proof.Machine
end

section
/-! The digit tables and the account codec of 42_base32_account.md. ALPHA and INV are inverse to each other, which is
all the digit commands need; ACCENC and ACCDEC emit one string each, so their effect is what stands at each place of
that string. -/

namespace Sys2Proof.Machine

/-! ALPHA and INV -/

theorem inv_alpha : ∀ v : Small, inv (alpha v) = some v := by decide

/-- INV is the inverse of ALPHA (42_base32_account.md R87). -/
theorem inv_eq_some_iff (b : Byte) (v : Small) : inv b = some v ↔ alpha v = b := by
  constructor
  · intro h
    exact beq_iff_eq.mp (List.find?_some (p := fun v => alpha v == b) h)
  · rintro rfl
    exact inv_alpha v

theorem inv_eq_none_iff (b : Byte) : inv b = none ↔ ∀ v, b ≠ alpha v := by
  simp only [Option.eq_none_iff_forall_ne_some, ne_eq, inv_eq_some_iff, eq_comm (a := b)]

theorem alpha_injective : Function.Injective alpha := fun u v h =>
  Option.some.inj (by rw [← inv_alpha u, h, inv_alpha v])

theorem alpha_eq_getElem (v : Small) : alpha v = alphabet[v.toNat]'v.isLt := List.getD_eq_getElem _ _ v.isLt

/-- The bytes that are some digit's character are those of the alphabet. -/
theorem exists_alpha_eq_iff (b : Byte) : (∃ v, alpha v = b) ↔ b ∈ alphabet := by
  constructor
  · rintro ⟨v, rfl⟩
    rw [alpha_eq_getElem]
    exact List.getElem_mem _
  · intro h
    obtain ⟨n, hn, rfl⟩ := List.getElem_of_mem h
    have hlt : n < 2 ^ 5 := hn
    exact ⟨BitVec.ofNatLT n hlt, alpha_eq_getElem _⟩

/-- The alphabet as the byte ranges of 42_base32_account.md R87. -/
theorem mem_alphabet_iff (b : Byte) :
    b ∈ alphabet ↔ b = 0x31#8 ∨ (0x33#8 ≤ b ∧ b ≤ 0x39#8) ∨ (0x61#8 ≤ b ∧ b ≤ 0x6B#8)
      ∨ (0x6D#8 ≤ b ∧ b ≤ 0x75#8) ∨ (0x77#8 ≤ b ∧ b ≤ 0x7A#8) := by
  revert b
  decide +kernel

/-! How the commands of this section end -/

theorem tableWord_eq_encodeP (op : BitVec 5) (p : Position) :
    tableWord (op.toNat * 2 ^ 11) .w128 p.toNat = encodeP op p := tableWord_eq_assemble op .w128 p

/-- A command that completes with an output string changes OBUF, OLEN and ERR, and of OBUF only the string's places. -/
theorem completes_of_emit {i : Instr} {s : State} {bytes : List Byte} (h : exec i s = complete (s.emit bytes)) :
    ∃ t, exec i s = .next t ∧ (∀ k, k < bytes.length → t.obuf.read k = bytes.getD k 0#8)
      ∧ (∀ k, bytes.length ≤ k → t.obuf.read k = s.obuf.read k)
      ∧ t.olen = BitVec.ofNat 8 bytes.length ∧ t.err = 0#3 ∧ KeepsAllBut [.obuf, .olen, .err] s t := by
  refine ⟨(s.emit bytes).setErr 0#3, h.trans (complete_eq _), fun k hk => ?_, fun k hk => ?_, ?_, State.setErr_err _ _,
    (keepsAllBut_emit s bytes).setErr 0#3⟩
  · rw [State.setErr_obuf, read_emit, if_pos hk]
  · rw [State.setErr_obuf, read_emit, if_neg (Nat.not_lt.mpr hk)]
  · rw [State.setErr_olen, State.emit_olen]

theorem exec_b32d_of_digit {s : State} {p : Position} {v : Small} (h : inv (s.ibuf.read p.toNat) = some v) :
    exec (.b32d p) s = complete (s.setR v) := by
  simp only [exec, execB32d, h]

theorem exec_b32d_of_bad_character {s : State} {p : Position} (h : inv (s.ibuf.read p.toNat) = none) :
    exec (.b32d p) s = raise .invalidCharacter s := by
  simp only [exec, execB32d, h]

theorem exec_accenc_of_length {s : State} (h : s.ilen.toNat = 37) :
    exec .accenc s = complete (s.emit (encodeAddress (loadBigEndian 256 (s.ibuf.readRange 0 32))
      (loadLittleEndian 40 (s.ibuf.readRange 32 5)))) := by
  rw [exec, execAccenc, if_neg (not_not.mpr h)]

theorem exec_accenc_of_wrong_length {s : State} (h : s.ilen.toNat ≠ 37) :
    exec .accenc s = raise .invalidLength s := by
  rw [exec, execAccenc, if_pos h]

/-- The length and the four lead bytes are tested before any character (60_exceptions.md R111). -/
theorem exec_accdec_of_bad_format {s : State} (h : s.ilen.toNat ≠ 64 ∨ ¬ PrefixIsXrb s) :
    exec .accdec s = raise .invalidFormat s := by
  rw [exec, execAccdec]
  by_cases hlen : s.ilen.toNat ≠ 64
  · rw [if_pos hlen]
  · have hprefix := h.resolve_left hlen
    rw [if_neg hlen, if_pos (by rwa [Bool.not_eq_true', ← Bool.not_eq_true, prefixAccepted_iff])]

theorem exec_accdec_of_bad_character {s : State} (hlen : s.ilen.toNat = 64) (hprefix : PrefixIsXrb s)
    (h : invAll (s.ibuf.readRange 4 60) = none) : exec .accdec s = raise .invalidCharacter s := by
  have haccepted := (prefixAccepted_iff s).mpr hprefix
  simp [exec, execAccdec, hlen, haccepted, h]

theorem exec_accdec_of_digits {s : State} {ds : List Small} (hlen : s.ilen.toNat = 64) (hprefix : PrefixIsXrb s)
    (h : invAll (s.ibuf.readRange 4 60) = some ds) :
    exec .accdec s = complete (s.emit (decodeAddressDigits ds)) := by
  have haccepted := (prefixAccepted_iff s).mpr hprefix
  simp [exec, execAccdec, hlen, haccepted, h]

/-! The encoded address, place by place -/

section EncodedAddress

variable (key : BitVec 256) (checksum : BitVec 40)

theorem encodeAddress_getD_prefix {k : Nat} (hk : k < 4) :
    (encodeAddress key checksum).getD k 0#8 = addressPrefix.getD k 0#8 := by
  rw [encodeAddress, List.append_assoc, List.getD_append _ _ _ _ hk]

/-- Key digit i of 52, the most significant first. -/
theorem encodeAddress_getD_key {i : Nat} (hi : i < 52) :
    (encodeAddress key checksum).getD (4 + i) 0#8 = alpha (BitVec.ofNat 5 (key.toNat / 32 ^ (51 - i))) := by
  have hprefix : addressPrefix.length = 4 := rfl
  rw [encodeAddress, List.append_assoc, List.getD_append_right _ _ _ _ (by omega), hprefix, Nat.add_sub_cancel_left,
    List.getD_append _ _ _ _ (by rwa [digitString_length]), digitString_getD 52 key i hi]

/-- Checksum digit j of 8, the most significant first. -/
theorem encodeAddress_getD_checksum {j : Nat} (hj : j < 8) :
    (encodeAddress key checksum).getD (56 + j) 0#8 = alpha (BitVec.ofNat 5 (checksum.toNat / 32 ^ (7 - j))) := by
  have hlead : (addressPrefix ++ digitString 52 key).length = 56 := by
    rw [List.length_append, digitString_length]; rfl
  rw [encodeAddress, List.getD_append_right _ _ _ _ (by omega), hlead, Nat.add_sub_cancel_left,
    digitString_getD 8 checksum j hj]

end EncodedAddress

/-- The key that ACCENC reads: 32 bytes fill 256 bits exactly. -/
theorem toNat_load_key (m : Memory) :
    (loadBigEndian 256 (m.readRange 0 32)).toNat = ∑ k ∈ Finset.range 32, (m.read k).toNat * 256 ^ (31 - k) := by
  rw [toNat_loadBigEndian _ (by rw [Memory.readRange_length]; decide), bigEndianValue_readRange]
  simp only [Nat.zero_add]

/-- The checksum integer that ACCENC reads: five bytes fill 40 bits exactly. -/
theorem toNat_load_checksum (m : Memory) :
    (loadLittleEndian 40 (m.readRange 32 5)).toNat = ∑ k ∈ Finset.range 5, (m.read (32 + k)).toNat * 256 ^ k := by
  rw [toNat_loadLittleEndian _ (by rw [Memory.readRange_length]; decide), littleEndianValue_readRange]

/-! The digits of an address -/

/-- The digits that d gives to n indices from a on. -/
def digitsFrom (d : Nat → Small) (a n : Nat) : List Small := (List.range n).map fun k => d (a + k)

@[simp] theorem digitsFrom_length (d : Nat → Small) (a n : Nat) : (digitsFrom d a n).length = n := by
  rw [digitsFrom, List.length_map, List.length_range]

theorem digitsFrom_getD {d : Nat → Small} {a n i : Nat} (hi : i < n) : (digitsFrom d a n).getD i 0#5 = d (a + i) := by
  rw [List.getD_eq_getElem _ _ (by rwa [digitsFrom_length])]
  simp only [digitsFrom, List.getElem_map, List.getElem_range]

theorem digitsFrom_add (d : Nat → Small) (a m n : Nat) :
    digitsFrom d a (m + n) = digitsFrom d a m ++ digitsFrom d (a + m) n := by
  simp only [digitsFrom, List.range_add, List.map_append, List.map_map, Function.comp_def, Nat.add_assoc]

theorem invAll_map {f : Nat → Byte} {g : Nat → Small} {ks : List Nat} (h : ∀ k ∈ ks, inv (f k) = some (g k)) :
    invAll (ks.map f) = some (ks.map g) := by
  induction ks with
  | nil => rfl
  | cons k ks ih =>
    have hrest := ih fun j hj => h j (List.mem_cons_of_mem k hj)
    simp only [List.map_cons, invAll, h k List.mem_cons_self, hrest]

/-- A range of alphabet characters gives their digits in order. -/
theorem invAll_readRange_of_digits {m : Memory} {d : Nat → Small} {a n : Nat}
    (h : ∀ k, k < n → inv (m.read (a + k)) = some (d (a + k))) :
    invAll (m.readRange a n) = some (digitsFrom d a n) :=
  invAll_map fun k hk => h k (List.mem_range.mp hk)

theorem invAll_readRange_eq_none_iff (m : Memory) (a n : Nat) :
    invAll (m.readRange a n) = none ↔ ∃ k, k < n ∧ inv (m.read (a + k)) = none := by
  simp [invAll_eq_none, Memory.readRange]

/-- The value that n digits accumulate, the most significant digit first, cut to W bits. -/
theorem toNat_accumulateDigits_digitsFrom {W : Nat} (hW : 5 ≤ W) (d : Nat → Small) (a n : Nat) :
    (accumulateDigits W (digitsFrom d a n)).toNat =
      (∑ i ∈ Finset.range n, (d (a + i)).toNat * 32 ^ (n - 1 - i)) % 2 ^ W := by
  rw [accumulateDigits, accumulate_toNat hW, BitVec.toNat_ofNat, Nat.zero_mod, Nat.zero_mul, Nat.zero_add,
    digitsFrom_length]
  congr 1
  exact Finset.sum_congr rfl fun i hi => by rw [digitsFrom_getD (Finset.mem_range.mp hi)]

/-! The decoded bytes, place by place -/

/-- 60 digits are 52 of the key and 8 of the checksum. -/
theorem decodeAddressDigits_digitsFrom (d : Nat → Small) :
    decodeAddressDigits (digitsFrom d 4 60) =
      storeBigEndian 32 (accumulateDigits 256 (digitsFrom d 4 52))
        ++ storeLittleEndian 5 (accumulateDigits 40 (digitsFrom d 56 8)) := by
  have hsplit : digitsFrom d 4 60 = digitsFrom d 4 52 ++ digitsFrom d 56 8 := digitsFrom_add d 4 52 8
  have hlen := digitsFrom_length d 4 52
  rw [decodeAddressDigits, hsplit, List.take_left' hlen, List.drop_left' hlen]

/-- Key byte k of 32, the most significant first. -/
theorem decodeAddressDigits_getD_key (d : Nat → Small) {k : Nat} (hk : k < 32) :
    ((decodeAddressDigits (digitsFrom d 4 60)).getD k 0#8).toNat =
      (∑ i ∈ Finset.range 52, (d (4 + i)).toNat * 32 ^ (51 - i)) % 2 ^ 256 / 256 ^ (31 - k) % 256 := by
  rw [decodeAddressDigits_digitsFrom, List.getD_append _ _ _ _ (by rwa [storeBigEndian_length]),
    storeBigEndian_getD 32 _ k hk, toNat_accumulateDigits_digitsFrom (by decide)]

/-- The cut to n bytes does not reach the bytes below n. -/
theorem mod_pow_div_pow_mod (x : Nat) {k n : Nat} (hk : k < n) : x % 256 ^ n / 256 ^ k % 256 = x / 256 ^ k % 256 := by
  have hpow : 256 ^ n = 256 ^ k * 256 ^ (n - k) := by rw [← pow_add, Nat.add_sub_cancel' hk.le]
  rw [hpow, Nat.mod_mul_right_div_self, Nat.mod_mod_of_dvd _ (dvd_pow_self 256 (Nat.sub_ne_zero_of_lt hk))]

/-- Checksum byte k of 5, the least significant first. -/
theorem decodeAddressDigits_getD_checksum (d : Nat → Small) {k : Nat} (hk : k < 5) :
    ((decodeAddressDigits (digitsFrom d 4 60)).getD (32 + k) 0#8).toNat =
      (∑ j ∈ Finset.range 8, (d (56 + j)).toNat * 32 ^ (7 - j)) / 256 ^ k % 256 := by
  rw [decodeAddressDigits_digitsFrom, List.getD_append_right _ _ _ _ (by rw [storeBigEndian_length]; omega),
    storeBigEndian_length, Nat.add_sub_cancel_left, storeLittleEndian_getD 5 _ k hk,
    toNat_accumulateDigits_digitsFrom (by decide), show 2 ^ 40 = 256 ^ 5 from rfl, mod_pow_div_pow_mod _ hk]

/-! The obligations -/

/-- Settles O44: the character at the position is in the domain of INV or it is not. -/
theorem b32dReadsOneDigitOrFails : Obligations.B32dReadsOneDigitOrFails := by
  intro p s
  refine ⟨decode_of_eq_encode (tableWord_eq_encodeP 0x0D#5 p) rfl, fun v hread => ?digit, fun hread => ?refused⟩
  case digit =>
    have hexec := exec_b32d_of_digit ((inv_eq_some_iff _ v).mpr hread.symm)
    exact ⟨(s.setR v).setErr 0#3, hexec.trans (complete_eq _), by rw [State.setErr_r, State.setR_r],
      State.setErr_err _ _, (keepsAllBut_setR s v).setErr 0#3⟩
  case refused => exact fails_of_raise (exec_b32d_of_bad_character ((inv_eq_none_iff _).mpr hread))

/-- Settles O45: OBUF holds the encoded address of the key and the checksum read from IBUF. -/
theorem accencWritesTheAddress : Obligations.AccencWritesTheAddress := by
  intro s
  refine ⟨decode_of_eq_encode rfl rfl, fun hlen => ?encodes,
    fun hlen => fails_of_raise (exec_accenc_of_wrong_length hlen)⟩
  case encodes =>
    obtain ⟨t, ht, hread, hkept, holen, herr, hframe⟩ := completes_of_emit (exec_accenc_of_length hlen)
    rw [encodeAddress_length] at hread hkept holen
    have hprefix (k : Nat) (hk : k < 4) : t.obuf.read k = addressPrefix.getD k 0#8 :=
      (hread k (by omega)).trans (encodeAddress_getD_prefix _ _ hk)
    refine ⟨t, ht, hprefix 0 (by decide), hprefix 1 (by decide), hprefix 2 (by decide), hprefix 3 (by decide),
      fun i hi => ?keyPlaces, fun j hj => ?checksumPlaces, hkept, holen, herr, hframe⟩
    case keyPlaces => rw [hread _ (by omega), encodeAddress_getD_key _ _ hi, toNat_load_key]
    case checksumPlaces => rw [hread _ (by omega), encodeAddress_getD_checksum _ _ hj, toNat_load_checksum]

/-- Settles O48: the tests in their order, and for a valid address the bytes of the two numbers its digits spell. -/
theorem accdecReadsTheAddress : Obligations.AccdecReadsTheAddress := by
  intro s
  refine ⟨decode_of_eq_encode rfl rfl, fun hlen => fails_of_raise (exec_accdec_of_bad_format (.inl hlen)),
    fun hprefix => fails_of_raise (exec_accdec_of_bad_format (.inr hprefix)), fun hlen hprefix hbad => ?character,
    fun d hlen hprefix hdigits => ?decodes⟩
  case character =>
    obtain ⟨j, h4, h63, hj⟩ := hbad
    have hnone : invAll (s.ibuf.readRange 4 60) = none :=
      (invAll_readRange_eq_none_iff _ _ _).mpr ⟨j - 4, by omega, by rwa [Nat.add_sub_cancel' h4]⟩
    exact fails_of_raise (exec_accdec_of_bad_character hlen hprefix hnone)
  case decodes =>
    have hinv : invAll (s.ibuf.readRange 4 60) = some (digitsFrom d 4 60) :=
      invAll_readRange_of_digits fun k hk => hdigits (4 + k) (by omega) (by omega)
    obtain ⟨t, ht, hread, hkept, holen, herr, hframe⟩ := completes_of_emit (exec_accdec_of_digits hlen hprefix hinv)
    rw [decodeAddressDigits_length] at hread hkept holen
    refine ⟨t, ht, fun k hk => ?keyPlaces, fun k hk => ?checksumPlaces, hkept, holen, herr, hframe⟩
    case keyPlaces => rw [hread k (by omega), decodeAddressDigits_getD_key d hk]
    case checksumPlaces => rw [hread _ (by omega), decodeAddressDigits_getD_checksum d hk]

/-- Settles O41: the list is compared entry by entry, and INV undoes ALPHA. -/
theorem alphaIsTheSpecsAlphabet : Obligations.AlphaIsTheSpecsAlphabet :=
  ⟨by decide, fun _ _ h => alpha_injective h⟩

/-- Settles O42. -/
theorem invIsDefinedOnTheAlphabetAlone : Obligations.InvIsDefinedOnTheAlphabetAlone := by
  refine ⟨inv_eq_some_iff, fun b => ?_⟩
  rw [← mem_alphabet_iff, ← exists_alpha_eq_iff, Option.ne_none_iff_exists']
  simp only [inv_eq_some_iff]

/-- Settles O43. -/
theorem b32eWritesOneCharacter : Obligations.B32eWritesOneCharacter := by
  intro p s
  refine ⟨decode_of_eq_encode (tableWord_eq_encodeP 0x0C#5 p) rfl,
    (s.setObuf (s.obuf.write p.toNat (alpha s.r))).setErr 0#3, complete_eq _, ?_, fun k hk => ?_, State.setErr_err _ _,
    (keepsAllBut_setObuf s _).setErr 0#3⟩
  · rw [State.setErr_obuf, State.setObuf_obuf, Memory.read_write, if_pos rfl]
  · rw [State.setErr_obuf, State.setObuf_obuf, Memory.read_write, if_neg hk]

end Sys2Proof.Machine
end

section
/-! The balance codec of 43_balance.md. BALDEC renders as DEC.128 does, so its string is that of `exec_dec_renders` for
the state LDBE.128 leaves; what is new is that the two commands emit one string into buffers that hold the same bytes. -/

namespace Sys2Proof.Machine

/-- An output string fixes OLEN and its own places; the other places are those of the buffer it is written to. -/
theorem emit_outputs_agree {s u : State} (h : Part.obuf.agrees s u) (bytes : List Byte) :
    (s.emit bytes).olen = (u.emit bytes).olen ∧ ∀ k, (s.emit bytes).obuf.read k = (u.emit bytes).obuf.read k :=
  ⟨by rw [State.emit_olen, State.emit_olen], fun k => by rw [read_emit, read_emit, h k]⟩

theorem exec_baldec_of_length {s : State} (h : s.ilen.toNat = 16) :
    exec .baldec s = complete (s.emit (decimalString .w128 (loadBigEndian 128 (s.ibuf.readRange 0 16)))) := by
  rw [exec, execBaldec, if_neg (not_not.mpr h)]

theorem exec_baldec_of_wrong_length {s : State} (h : s.ilen.toNat ≠ 16) :
    exec .baldec s = raise .invalidLength s := by
  rw [exec, execBaldec, if_pos h]

theorem exec_balenc (s : State) : exec .balenc s = raise .unimplemented s := rfl

theorem exec_dec (w : Width) (s : State) : exec (.dec w) s = complete (s.emit (decimalString w (s.acc w))) := rfl

/-- BALDEC and DEC.128 leave the same outputs when A128 holds the value of the 16 bytes and OBUF is the same. -/
theorem baldec_outputs_eq_dec {s t u v : State} (hlen : s.ilen.toNat = 16)
    (hacc : u.acc .w128 = loadBigEndian 128 (s.ibuf.readRange 0 16)) (hobuf : Part.obuf.agrees s u)
    (ht : exec .baldec s = .next t) (hv : exec (.dec .w128) u = .next v) :
    t.olen = v.olen ∧ ∀ k, t.obuf.read k = v.obuf.read k := by
  rw [exec_baldec_of_length hlen, complete_eq, Host.Outcome.next.injEq] at ht
  rw [exec_dec, hacc, complete_eq, Host.Outcome.next.injEq] at hv
  subst ht hv
  simpa only [State.setErr_olen, State.setErr_obuf] using emit_outputs_agree hobuf _

/-! The obligations -/

/-- Settles O54: the length and the kept bytes of DEC.128's output, run after LDBE.128, are those of BALDEC's. -/
theorem baldecRendersTheSixteenBytes : Obligations.BaldecRendersTheSixteenBytes := by
  intro s
  refine ⟨decode_of_eq_encode rfl rfl, fun hlen => ?renders,
    fun hlen => fails_of_raise (exec_baldec_of_wrong_length hlen)⟩
  case renders =>
    obtain ⟨-, hloads, -⟩ := ldbeLoadsExactlyWBitsBigEndian .w128 s
    obtain ⟨u, hu, hvalue, -, hloadFrame⟩ := hloads hlen
    obtain ⟨v, hv, hstr, hmax, hkept, -⟩ := exec_dec_renders .w128 u
    obtain ⟨t, ht, -, -, -, herr, hframe⟩ := completes_of_emit (exec_baldec_of_length hlen)
    have hsame : Part.obuf.agrees s u := hloadFrame .obuf (by decide)
    obtain ⟨holen, hread⟩ := baldec_outputs_eq_dec hlen (acc_of_exec_ldbe hlen hu) hsame ht hv
    have hrest (k : Nat) (hk : v.olen.toNat ≤ k) : t.obuf.read k = s.obuf.read k :=
      ((hread k).trans (hkept k hk)).trans (hsame k)
    rw [← holen] at hmax hrest hstr
    exact ⟨t, u, v, ht, hu, hv, hvalue, holen, hread, hstr.length_pos, hmax, hrest, herr, hframe⟩

/-- Settles O55: the raise is the command's whole meaning. -/
theorem balencAlwaysFailsAsUnimplemented : Obligations.BalencAlwaysFailsAsUnimplemented :=
  ⟨decode_of_eq_encode rfl rfl, fun s => fails_of_raise (exec_balenc s)⟩

end Sys2Proof.Machine
end

section
/-! The exceptions of 60_exceptions.md. The one fact behind the statements is `exec_ends_by_cause`: a command raises a
kind of R105's table whose cause holds, or completes when no cause holds. What R106 and R111 add is said about the table
alone: which kinds can have a cause for a command, and that only ACCDEC can have causes of two kinds. -/

namespace Sys2Proof.Machine

/-! The table of causes, read by command -/

theorem hasCause_ldbe_iff {k : ErrorKind} {w : Width} {s : State} :
    HasCause k (.ldbe w) s ↔ k = .invalidLength ∧ s.ilen.toNat ≠ w.bytes := by
  cases k <;> simp [HasCause]

theorem hasCause_divs_iff {k : ErrorKind} {w : Width} {d : Small} {s : State} :
    HasCause k (.divs w d) s ↔ k = .illegalCommand ∧ d = 0#5 := by
  cases k <;> simp [HasCause]

theorem hasCause_b32d_iff {k : ErrorKind} {p : Position} {s : State} :
    HasCause k (.b32d p) s ↔ k = .invalidCharacter ∧ inv (s.ibuf.read p.toNat) = none := by
  cases k <;> simp [HasCause]

theorem hasCause_accenc_iff {k : ErrorKind} {s : State} :
    HasCause k .accenc s ↔ k = .invalidLength ∧ s.ilen.toNat ≠ 37 := by
  cases k <;> simp [HasCause]

theorem hasCause_accdec_iff {k : ErrorKind} {s : State} :
    HasCause k .accdec s ↔ (k = .invalidFormat ∧ (s.ilen.toNat ≠ 64 ∨ ¬ PrefixIsXrb s))
      ∨ (k = .invalidCharacter ∧ ∃ j, 4 ≤ j ∧ j ≤ 63 ∧ inv (s.ibuf.read j) = none) := by
  cases k <;> simp [HasCause]

theorem hasCause_baldec_iff {k : ErrorKind} {s : State} :
    HasCause k .baldec s ↔ k = .invalidLength ∧ s.ilen.toNat ≠ 16 := by
  cases k <;> simp [HasCause]

theorem hasCause_balenc_iff {k : ErrorKind} {s : State} : HasCause k .balenc s ↔ k = .unimplemented := by
  cases k <;> simp [HasCause]

/-- R105's table names a command under a kind only where R106 lists it; the one entry besides is the division by zero,
which no word encodes. -/
theorem hasCause_listed {k : ErrorKind} {i : Instr} {s : State} (h : HasCause k i s) :
    k ∈ canRaise i ∨ ∃ w, i = .divs w 0#5 ∧ k = .illegalCommand := by
  cases k with
  | invalidFormat =>
    obtain ⟨rfl, -⟩ := h
    exact .inl (by decide)
  | invalidCharacter =>
    obtain ⟨rfl, -⟩ | ⟨p, rfl, -⟩ := h
    · exact .inl (by decide)
    · exact .inl List.mem_cons_self
  | invalidLength =>
    obtain ⟨w, rfl, -⟩ | ⟨rfl, -⟩ | ⟨rfl, -⟩ := h
    all_goals exact .inl List.mem_cons_self
  | unimplemented =>
    obtain rfl : i = .balenc := h
    exact .inl (by decide)
  | illegalCommand =>
    obtain ⟨w, rfl⟩ := h
    exact .inr ⟨w, rfl, rfl⟩

theorem mem_canRaise_of_hasCause {k : ErrorKind} {i : Instr} {s : State} (hi : i.wf = true) (h : HasCause k i s) :
    k ∈ canRaise i := by
  obtain hlisted | ⟨w, rfl, -⟩ := hasCause_listed h
  · exact hlisted
  · exact absurd hi (by simp [Instr.wf])

theorem eq_of_mem_canRaise {i : Instr} {k l : ErrorKind} (hi : i ≠ .accdec) (hk : k ∈ canRaise i)
    (hl : l ∈ canRaise i) : k = l := by
  cases i <;> simp_all [canRaise]

/-- Only ACCDEC can have causes of two kinds at once (60_exceptions.md R111). -/
theorem hasCause_unique {i : Instr} {s : State} {k l : ErrorKind} (hi : i ≠ .accdec) (hk : HasCause k i s)
    (hl : HasCause l i s) : k = l := by
  obtain hk | ⟨w, rfl, rfl⟩ := hasCause_listed hk
  · obtain hl | ⟨w, rfl, -⟩ := hasCause_listed hl
    · exact eq_of_mem_canRaise hi hk hl
    · exact nomatch hk
  · exact (hasCause_divs_iff.mp hl).1.symm

/-! ACCDEC's three outcomes in the table's terms -/

theorem format_of_not_hasCause {s : State} (h : ¬ HasCause .invalidFormat .accdec s) :
    s.ilen.toNat = 64 ∧ PrefixIsXrb s := by
  simpa [hasCause_accdec_iff] using h

theorem invAll_address_eq_none_iff (s : State) :
    invAll (s.ibuf.readRange 4 60) = none ↔ HasCause .invalidCharacter .accdec s := by
  simp only [invAll_readRange_eq_none_iff, hasCause_accdec_iff, reduceCtorEq, false_and, false_or, true_and]
  constructor
  · rintro ⟨k, hk, hnone⟩
    exact ⟨4 + k, by omega, by omega, hnone⟩
  · rintro ⟨j, h4, h63, hnone⟩
    exact ⟨j - 4, by omega, by rwa [Nat.add_sub_cancel' h4]⟩

theorem exec_accdec_of_format_cause {s : State} (h : HasCause .invalidFormat .accdec s) :
    exec .accdec s = raise .invalidFormat s := exec_accdec_of_bad_format h.2

theorem exec_accdec_of_character_cause {s : State} (hformat : ¬ HasCause .invalidFormat .accdec s)
    (h : HasCause .invalidCharacter .accdec s) : exec .accdec s = raise .invalidCharacter s :=
  have ⟨hlen, hprefix⟩ := format_of_not_hasCause hformat
  exec_accdec_of_bad_character hlen hprefix ((invAll_address_eq_none_iff s).mpr h)

theorem exec_accdec_of_no_cause {s : State} (hformat : ¬ HasCause .invalidFormat .accdec s)
    (hcharacter : ¬ HasCause .invalidCharacter .accdec s) : ∃ u, exec .accdec s = complete u := by
  obtain ⟨hlen, hprefix⟩ := format_of_not_hasCause hformat
  rw [← invAll_address_eq_none_iff, ← ne_eq, Option.ne_none_iff_exists'] at hcharacter
  obtain ⟨ds, hds⟩ := hcharacter
  exact ⟨_, exec_accdec_of_digits hlen hprefix hds⟩

/-! How a command ends, and why -/

/-- A command raises a kind whose cause holds, or completes when no cause of any kind holds (60_exceptions.md R105).
The commands with a test are split along it; the others have no entry in the table. -/
theorem exec_ends_by_cause (i : Instr) (s : State) :
    (∃ k, HasCause k i s ∧ exec i s = raise k s) ∨ (∃ u, exec i s = complete u) ∧ ∀ k, ¬ HasCause k i s := by
  cases i
  case ldbe w =>
    by_cases hlen : s.ilen.toNat = w.bytes
    · exact .inr ⟨⟨_, exec_ldbe_of_length hlen⟩, fun k hk => (hasCause_ldbe_iff.mp hk).2 hlen⟩
    · exact .inl ⟨_, hasCause_ldbe_iff.mpr ⟨rfl, hlen⟩, exec_ldbe_of_wrong_length hlen⟩
  case divs w d =>
    by_cases hd : d = 0#5
    · subst hd
      exact .inl ⟨_, hasCause_divs_iff.mpr ⟨rfl, rfl⟩, exec_divs_zero s w⟩
    · exact .inr ⟨⟨_, exec_divs_of_ne hd⟩, fun k hk => hd (hasCause_divs_iff.mp hk).2⟩
  case b32d p =>
    cases hinv : inv (s.ibuf.read p.toNat) with
    | none => exact .inl ⟨_, hasCause_b32d_iff.mpr ⟨rfl, hinv⟩, exec_b32d_of_bad_character hinv⟩
    | some v =>
      refine .inr ⟨⟨_, exec_b32d_of_digit hinv⟩, fun k hk => ?_⟩
      exact absurd (hinv.symm.trans (hasCause_b32d_iff.mp hk).2) (by simp)
  case accenc =>
    by_cases hlen : s.ilen.toNat = 37
    · exact .inr ⟨⟨_, exec_accenc_of_length hlen⟩, fun k hk => (hasCause_accenc_iff.mp hk).2 hlen⟩
    · exact .inl ⟨_, hasCause_accenc_iff.mpr ⟨rfl, hlen⟩, exec_accenc_of_wrong_length hlen⟩
  case accdec =>
    by_cases hformat : HasCause .invalidFormat .accdec s
    · exact .inl ⟨_, hformat, exec_accdec_of_format_cause hformat⟩
    by_cases hcharacter : HasCause .invalidCharacter .accdec s
    · exact .inl ⟨_, hcharacter, exec_accdec_of_character_cause hformat hcharacter⟩
    refine .inr ⟨exec_accdec_of_no_cause hformat hcharacter, fun k hk => ?_⟩
    obtain ⟨rfl, -⟩ | ⟨rfl, -⟩ := hasCause_accdec_iff.mp hk
    · exact hformat hk
    · exact hcharacter hk
  case baldec =>
    by_cases hlen : s.ilen.toNat = 16
    · exact .inr ⟨⟨_, exec_baldec_of_length hlen⟩, fun k hk => (hasCause_baldec_iff.mp hk).2 hlen⟩
    · exact .inl ⟨_, hasCause_baldec_iff.mpr ⟨rfl, hlen⟩, exec_baldec_of_wrong_length hlen⟩
  case balenc => exact .inl ⟨_, hasCause_balenc_iff.mpr rfl, exec_balenc s⟩
  all_goals exact .inr ⟨⟨_, rfl⟩, fun k hk => by simpa [canRaise] using hasCause_listed hk⟩

/-- Where one kind alone can have a cause, the command fails with it. -/
theorem fails_of_hasCause {k : ErrorKind} {i : Instr} {s : State} (hi : i ≠ .accdec) (h : HasCause k i s) :
    Fails k i s := by
  obtain ⟨l, hl, hraise⟩ | ⟨-, hnone⟩ := exec_ends_by_cause i s
  · exact fails_of_raise (hasCause_unique hi h hl ▸ hraise)
  · exact absurd h (hnone k)

theorem hostIssue_of_illegalWord {word : CommandWord} (s : State) (h : IllegalWord word) :
    ∃ t, hostIssue word s = .next t ∧ t.err = ErrorKind.illegalCommand.code := by
  obtain ⟨e, he⟩ := (decode_refuses_iff word).mpr h
  exact ⟨_, hostIssue_of_refused s he, by simp⟩

/-- HostIssue of a word, of a command or of none, is error entry in the state it was issued in or the completion of its
command, with the new ERR as the answer. -/
theorem hostIssue_ends (word : CommandWord) (s : State) :
    (∃ k : ErrorKind, hostIssue word s = .next ((s.setErr k.code).setReply (.err k.code)))
    ∨ ∃ u : State, hostIssue word s = .next ((u.setErr 0#3).setReply (.err 0#3)) := by
  cases hd : decode word with
  | error e => exact .inl ⟨.illegalCommand, hostIssue_of_refused s hd⟩
  | ok i =>
    obtain ⟨k, hraise⟩ | ⟨u, hcomplete, -⟩ := exec_ends i s
    · exact .inl ⟨k, by simp only [hostIssue, hd, hraise, raise_eq, answerErr, State.setErr_err]⟩
    · exact .inr ⟨u, by simp only [hostIssue, hd, hcomplete, complete_eq, answerErr, State.setErr_err]⟩

/-! A state for each listed kind -/

/-- The reset state has no input, which is a cause of every kind a command lists, ACCDEC's second kind apart. -/
theorem hasCause_reset {i : Instr} {k : ErrorKind} (hi : i ≠ .accdec) (h : k ∈ canRaise i) :
    HasCause k i State.reset := by
  cases i
  case ldbe w => exact hasCause_ldbe_iff.mpr ⟨List.mem_singleton.mp h, by cases w <;> decide⟩
  case b32d p => exact hasCause_b32d_iff.mpr ⟨List.mem_singleton.mp h, by rw [State.reset, Memory.read_nil]; decide⟩
  case accenc => exact hasCause_accenc_iff.mpr ⟨List.mem_singleton.mp h, by decide⟩
  case baldec => exact hasCause_baldec_iff.mpr ⟨List.mem_singleton.mp h, by decide⟩
  case balenc => exact hasCause_balenc_iff.mpr (List.mem_singleton.mp h)
  case accdec => exact absurd rfl hi
  all_goals exact nomatch h

/-- An input as long as an address that begins with `xrb_` and holds 0x00 at every other place. -/
def barePrefix : State := (State.reset.setIbuf (Memory.writeRange [] 0 addressPrefix)).setIlen 64#8

theorem barePrefix_no_format_cause : ¬ HasCause .invalidFormat .accdec barePrefix := by
  have hlen : barePrefix.ilen.toNat = 64 := rfl
  have hprefix : PrefixIsXrb barePrefix := by unfold PrefixIsXrb; decide
  simp [hasCause_accdec_iff, hlen, hprefix]

theorem barePrefix_character_cause : HasCause .invalidCharacter .accdec barePrefix :=
  .inl ⟨rfl, 4, by decide, by decide, by decide⟩

/-- Each kind R106 lists for a command is one it fails with in some state. -/
theorem exists_fails_of_mem_canRaise {i : Instr} {k : ErrorKind} (h : k ∈ canRaise i) : ∃ s, Fails k i s := by
  by_cases hi : i = .accdec
  · subst hi
    obtain rfl | rfl : k = .invalidFormat ∨ k = .invalidCharacter := by simpa [canRaise] using h
    · exact ⟨State.reset, fails_of_raise (exec_accdec_of_format_cause ⟨rfl, .inl (by decide)⟩)⟩
    · exact ⟨barePrefix, fails_of_raise
        (exec_accdec_of_character_cause barePrefix_no_format_cause barePrefix_character_cause)⟩
  · exact ⟨State.reset, fails_of_hasCause hi (hasCause_reset hi h)⟩

/-! The obligations -/

/-- Settles O20: the two ways a command ends are the two sides of the equivalence. -/
theorem errRecordsTheKindWhoseCauseHolds : Obligations.ErrRecordsTheKindWhoseCauseHolds := by
  refine ⟨fun i s => ?ends, rfl, rfl, rfl, rfl, rfl, fun word s h => hostIssue_of_illegalWord s h⟩
  case ends =>
    obtain ⟨k, hk, hraise⟩ | ⟨⟨u, hcomplete⟩, hnone⟩ := exec_ends_by_cause i s
    · refine ⟨s.setErr k.code, hraise.trans (raise_eq k s), ?_, fun _ => ⟨k, State.setErr_err s _, hk⟩⟩
      rw [State.setErr_err]
      exact iff_of_false k.code_ne_zero fun hnone => hnone k hk
    · have herr : (u.setErr 0#3).err = 0#3 := State.setErr_err u _
      exact ⟨u.setErr 0#3, hcomplete.trans (complete_eq u), iff_of_true herr hnone, fun hne => absurd herr hne⟩

/-- Settles O21: a kind raised has a cause, so the command's row lists it, and every listed kind has its state. -/
theorem commandRaisesOnlyItsListedKinds : Obligations.CommandRaisesOnlyItsListedKinds := by
  refine ⟨fun i s t hi ht => ?listed, fun i k h => exists_fails_of_mem_canRaise h,
    fun s => fails_of_raise (exec_balenc s), fun word s h => hostIssue_of_illegalWord s h⟩
  case listed =>
    obtain ⟨k, hk, hraise⟩ | ⟨⟨u, hcomplete⟩, -⟩ := exec_ends_by_cause i s
    · rw [hraise, raise_eq] at ht
      obtain rfl := Host.Outcome.next.inj ht
      exact .inr ⟨k, mem_canRaise_of_hasCause hi hk, State.setErr_err s _⟩
    · rw [hcomplete, complete_eq] at ht
      obtain rfl := Host.Outcome.next.inj ht
      exact .inl (State.setErr_err u _)

/-- Settles O22: a word that fails ends in error entry, and the answer is all that is added. -/
theorem failedCommandChangesErrAlone : Obligations.FailedCommandChangesErrAlone := by
  intro word s t ht herr
  obtain ⟨k, hfails⟩ | ⟨u, hcompletes⟩ := hostIssue_ends word s
  · obtain rfl := Host.Outcome.next.inj (hfails.symm.trans ht)
    exact ⟨⟨k, by simp⟩, (keepsAllBut_setErr s _).append (keepsAllBut_setReply _ _)⟩
  · obtain rfl := Host.Outcome.next.inj (hcompletes.symm.trans ht)
    exact absurd (by simp) herr

/-- Settles O24: ACCDEC's tests come in R111's order, and no other command has two kinds to choose from. -/
theorem formatIsReportedOverCharacter : Obligations.FormatIsReportedOverCharacter :=
  ⟨fun _ h => fails_of_raise (exec_accdec_of_format_cause h),
    fun _ hformat h => fails_of_raise (exec_accdec_of_character_cause hformat h),
    fun _ s h => hostIssue_of_illegalWord s h,
    fun s => fails_of_raise (exec_balenc s),
    fun _ _ _ _ hi hk hl => hasCause_unique hi hk hl⟩

end Sys2Proof.Machine
end

section
/-! Issue order (20_memory.md R41). A transaction, like a command, does not look at what waits behind it, so a run over
a waiting list is the list's transactions one after another; the statements about the command words are the round trip of
`decode_encode` and `encode_of_decode`. -/

namespace Sys2Proof.Machine

/-! The waiting list -/

@[simp] theorem State.setPending_setPending (s : State) (ts us : List Transaction) :
    (s.setPending ts).setPending us = s.setPending us := (rfl)

@[simp] theorem State.setPending_self (s : State) : s.setPending s.pending = s := (rfl)

/-- No command changes the waiting list. -/
theorem pending_of_exec {i : Instr} {s t : State} (h : exec i s = .next t) : t.pending = s.pending := by
  obtain ⟨k, hraise⟩ | ⟨u, hcomplete, -, -, hpending, -⟩ := exec_ends i s
  · rw [hraise, raise_eq] at h
    rw [← Host.Outcome.next.inj h, State.setErr_pending]
  · rw [hcomplete, complete_eq] at h
    rw [← Host.Outcome.next.inj h, State.setErr_pending, hpending]

theorem answerErr_setPendingAfter (ts : List Transaction) (o : Result) :
    answerErr (setPendingAfter ts o) = setPendingAfter ts (answerErr o) := by
  cases o <;> rfl

theorem hostIssue_setPending (word : CommandWord) (s : State) (ts : List Transaction) :
    hostIssue word (s.setPending ts) = setPendingAfter ts (hostIssue word s) := by
  rw [hostIssue, hostIssue]
  cases decode word with
  | ok i => simp only [exec_setPending, answerErr_setPendingAfter]
  | error e => simp only [raise_setPending, answerErr_setPendingAfter]

/-- No transaction looks at what waits behind it. -/
theorem applyTransaction_setPending (x : Transaction) (s : State) (ts : List Transaction) :
    applyTransaction x (s.setPending ts) = setPendingAfter ts (applyTransaction x s) := by
  cases x with
  | writeIbuf i b => rfl
  | setIlen n => rfl
  | issue word => exact hostIssue_setPending word s ts
  | read port => simp only [applyTransaction, hostRead, portValue_setPending, setPendingAfter_next]; rfl
  | reset => rfl

/-- Every transaction answers a next state (70_reset_and_hazards.md R136). -/
theorem applyTransaction_completes (x : Transaction) (s : State) : ∃ t, applyTransaction x s = .next t := by
  cases x with
  | issue word =>
    obtain ⟨k, h⟩ | ⟨u, h⟩ := hostIssue_ends word s
    · exact ⟨_, h⟩
    · exact ⟨_, h⟩
  | writeIbuf i b => exact ⟨_, rfl⟩
  | setIlen n => exact ⟨_, rfl⟩
  | read port => exact ⟨_, rfl⟩
  | reset => exact ⟨_, rfl⟩

/-! Runs -/

theorem applyAll_cons {x : Transaction} {s t : State} (h : applyTransaction x s = .next t) (ts : List Transaction) :
    applyAll (x :: ts) s = applyAll ts t := by
  rw [applyAll, h]

theorem applyAll_append {ts : List Transaction} {s t : State} (h : applyAll ts s = .next t) (us : List Transaction) :
    applyAll (ts ++ us) s = applyAll us t := by
  induction ts generalizing s with
  | nil =>
    obtain rfl : s = t := Host.Outcome.next.inj h
    rfl
  | cons x ts ih =>
    obtain ⟨u, hu⟩ := applyTransaction_completes x s
    rw [applyAll_cons hu] at h
    rw [List.cons_append, applyAll_cons hu, ih h]

theorem run_succ {s t : State} (h : step s = .next t) (k : Nat) : core.run (k + 1) s = core.run k t := by
  have hcore : core.step s = .next t := h
  simp only [Host.Core.run, hcore]

theorem step_of_idle {s : State} (h : s.pending = []) : step s = .next s := by
  rw [step, advance, h]

/-- A run of as many steps as a list has transactions applies the list and leaves what waits behind it. -/
theorem run_pending (ts later : List Transaction) (s : State) :
    core.run ts.length (s.setPending (ts ++ later)) = applyAll ts (s.setPending later) := by
  induction ts generalizing s with
  | nil => rfl
  | cons x ts ih =>
    obtain ⟨t, ht⟩ := applyTransaction_completes x s
    have hafter (us : List Transaction) : applyTransaction x (s.setPending us) = .next (t.setPending us) := by
      rw [applyTransaction_setPending, ht, setPendingAfter_next]
    have hstep : step (s.setPending (x :: (ts ++ later))) = .next (t.setPending (ts ++ later)) := by
      rw [step_of_pending_cons (State.setPending_pending s _), State.setPending_setPending]
      exact hafter _
    rw [List.length_cons, List.cons_append, run_succ hstep, ih, applyAll_cons (hafter later)]

/-! A presented byte string (10_state.md R19) -/

/-- The writes of a byte string from index i on leave it in IBUF as far as the buffer reaches, and change nothing else
of the engine. -/
theorem applyAll_presentBytes (i : Nat) (bytes : List Byte) (s : State) :
    ∃ t, applyAll (presentBytes i bytes) s = .next t
      ∧ t.ibuf = s.ibuf.writeRange i (bytes.take (Config.ibufSize - i)) ∧ KeepsAllBut [.ibuf, .reply] s t := by
  induction bytes generalizing i s with
  | nil => exact ⟨s, rfl, by rw [List.take_nil]; rfl, keepsAllBut_refl _ s⟩
  | cons b rest ih =>
    rw [presentBytes]
    split
    · next hi =>
      obtain ⟨t, ht, hibuf, hframe⟩ := ih (i + 1) ((s.setIbuf (s.ibuf.write i b)).setReply .none)
      refine ⟨t, ht, ?_, ((keepsAllBut_setIbuf s _).append (keepsAllBut_setReply _ _)).trans hframe⟩
      rw [hibuf, State.setReply_ibuf, State.setIbuf_ibuf,
        show Config.ibufSize - i = Config.ibufSize - (i + 1) + 1 by omega, List.take_succ_cons, Memory.writeRange]
    · next hi =>
      refine ⟨s, rfl, ?_, keepsAllBut_refl _ s⟩
      rw [show Config.ibufSize - i = 0 by omega, List.take_zero, Memory.writeRange]

theorem toNat_presented_length (n : Nat) : (BitVec.ofNat 8 (min n 255)).toNat = min n 255 := by
  rw [BitVec.toNat_ofNat]
  exact Nat.mod_eq_of_lt (by omega)

/-- Presenting a byte string writes its first 64 bytes to IBUF and its length, cut to 255, to ILEN. -/
theorem applyAll_presentInput (bytes : List Byte) (s : State) :
    ∃ t, applyAll (presentInput bytes) s = .next t ∧ t.ibuf = s.ibuf.writeRange 0 (bytes.take 64)
      ∧ t.ilen.toNat = min bytes.length 255 ∧ KeepsAllBut [.ibuf, .ilen, .reply] s t := by
  obtain ⟨u, hu, hibuf, hframe⟩ := applyAll_presentBytes 0 bytes s
  refine ⟨(u.setIlen (BitVec.ofNat 8 (min bytes.length 255))).setReply .none, ?_, ?_, ?_, ?_⟩
  · rw [presentInput, applyAll_append hu]
    rfl
  · rw [State.setReply_ibuf, State.setIlen_ibuf, hibuf, Nat.sub_zero]
  · rw [State.setReply_ilen, State.setIlen_ilen, toNat_presented_length]
  · exact ((hframe.append (keepsAllBut_setIlen u _)).append (keepsAllBut_setReply _ _)).mono (by decide)

/-! The obligations -/

/-- Settles O1. -/
theorem encodedCommandDecodesToItself : Obligations.EncodedCommandDecodesToItself := decode_encode

/-- Settles O2. -/
theorem decodedWordEncodesBack : Obligations.DecodedWordEncodesBack := fun _ _ => encode_of_decode

/-- Settles O6: the word decodes to its command, which does not look at the list the word was put on. -/
theorem issuedEncodingRunsItsCommand : Obligations.IssuedEncodingRunsItsCommand := by
  intro s i hi
  obtain ⟨t, ht⟩ := exec_completes i s
  have hword : BitVec.ofNat 16 ((encode i).toNat % 2 ^ 16) = encode i := by
    rw [Nat.mod_eq_of_lt (encode i).isLt, BitVec.ofNat_toNat, BitVec.setWidth_eq]
  have hrun : exec i (s.setPending (.issue (encode i) :: s.pending))
      = .next (t.setPending (.issue (encode i) :: s.pending)) := by
    rw [exec_setPending, ht, setPendingAfter_next]
  refine ⟨t, ht, ?_⟩
  rw [State.withFetchWord, hword, step_of_issue_legal rfl (decode_encode i hi) hrun, State.setPending_setPending,
    ← pending_of_exec ht, State.setPending_self, State.setPending_err]

/-- Settles O8: a run over the waiting list applies the transactions that present the string, and the cut of its length
to 255 cannot be mistaken for a length up to 64. -/
theorem presentedInputIsTestedExactly : Obligations.PresentedInputIsTestedExactly := by
  intro s bytes
  obtain ⟨t, ht, hibuf, hilen, hframe⟩ := applyAll_presentInput bytes (s.setPending [])
  have hread (k : Nat) :
      t.ibuf.read k = if k < min bytes.length 64 then (bytes.take 64).getD k 0#8 else s.ibuf.read k := by
    rw [hibuf, Memory.read_writeRange, State.setPending_ibuf, List.length_take]
    simp only [Nat.zero_le, true_and, Nat.zero_add, Nat.sub_zero, Nat.min_comm]
  refine ⟨t, ?run, fun i hi => ?inside, fun i hi => ?outside, hilen, fun n hn => by omega, hframe .pending (by decide),
    ((keepsAllBut_setPending s []).append hframe).mono (by decide)⟩
  case run =>
    have hrun := run_pending (presentInput bytes) [] s
    rw [List.append_nil] at hrun
    exact hrun.trans ht
  case inside =>
    rw [hread, if_pos hi, List.getD_eq_getElem _ _ (by rw [List.length_take]; omega), List.getElem_take,
      List.getD_eq_getElem]
  case outside => rw [hread, if_neg (by omega)]

/-- Settles O9, by induction on the list. -/
theorem transactionsApplyInIssueOrder : Obligations.TransactionsApplyInIssueOrder := fun s ts later =>
  run_pending ts later s

/-- Settles O4: each word is the encoding of its command. -/
theorem sampleWordsDecodeAsTheSpecWritesThem : Obligations.SampleWordsDecodeAsTheSpecWritesThem :=
  ⟨decode_of_eq_encode rfl rfl, decode_of_eq_encode rfl rfl, decode_of_eq_encode rfl rfl, decode_of_eq_encode rfl rfl,
    decode_of_eq_encode rfl rfl, decode_of_eq_encode rfl rfl, decode_of_eq_encode rfl rfl, decode_of_eq_encode rfl rfl⟩

/-- Settles O5. -/
theorem stepRunsTheDecodedCommand : Obligations.StepRunsTheDecodedCommand := by
  intro s word rest i hpending hdecode
  obtain ⟨u, hu⟩ := exec_completes i s
  have hrun : exec i (s.setPending rest) = .next (u.setPending rest) := by
    rw [exec_setPending, hu, setPendingAfter_next]
  refine ⟨u.setPending rest, hrun, ?_, State.setPending_pending u rest⟩
  rw [step_of_issue_legal hpending hdecode hu, State.setPending_err]

/-- Settles O10. -/
theorem idleStepChangesNothing : Obligations.IdleStepChangesNothing := fun _ => step_of_idle

/-- Settles O11: an idle step answers the state itself, and any other step is one transaction. -/
theorem everyStepCompletes : Obligations.EveryStepCompletes := by
  intro s
  cases hpending : s.pending with
  | nil => exact ⟨s, step_of_idle hpending⟩
  | cons x rest =>
    rw [step_of_pending_cons hpending]
    exact applyTransaction_completes x _

/-- Settles O13. -/
theorem resetFromOutsideForgetsEverything : Obligations.ResetFromOutsideForgetsEverything := by
  intro s rest hpending
  refine ⟨State.reset.setPending rest, ?_, (keepsAllBut_setPending _ rest).mono (by decide),
    State.setPending_pending _ rest⟩
  rw [step_of_pending_cons hpending, applyTransaction, hostReset, State.setPending_pending]

end Sys2Proof.Machine
end

section
/-! Byte buffers in canonical form. A buffer's cells are exactly the indices that read as something other than the
unlisted byte, so what it reads as determines it. -/

namespace Sys2Proof.Machine

/-- A cell of a buffer in canonical form is what its index reads as, and every listed reading has its cell. -/
theorem Memory.mem_iff_read {size : Nat} {m : Memory} (h : m.wf size) (c : Host.Cell) :
    c ∈ m ↔ c.2 ≠ Config.unlistedByte ∧ m.read c.1 = c.2 := by
  induction m with
  | nil => exact iff_of_false List.not_mem_nil fun hread => hread.1 hread.2.symm
  | cons d rest ih =>
    obtain ⟨hsorted, hcells⟩ := h
    obtain ⟨hfirst, hrest⟩ := List.pairwise_cons.mp hsorted
    have hne := (hcells d List.mem_cons_self).2
    have htail := ih ⟨hrest, fun e he => hcells e (List.mem_cons_of_mem d he)⟩
    rw [List.mem_cons, Memory.read_cons]
    split
    · next hidx =>
      have hout : c ∉ rest := fun hc => absurd (hfirst c hc) (by omega)
      rw [or_iff_left hout]
      constructor
      · rintro rfl
        exact ⟨hne, rfl⟩
      · rintro ⟨-, hbyte⟩
        exact Prod.ext hidx.symm hbyte.symm
    · next hidx =>
      rw [htail, or_iff_right]
      rintro rfl
      exact hidx rfl

/-- Cells of rising index are determined by which cells there are. -/
theorem Memory.eq_of_mem_iff {m n : Memory} (hm : m.Pairwise fun c d => c.1 < d.1)
    (hn : n.Pairwise fun c d => c.1 < d.1) (h : ∀ c, c ∈ m ↔ c ∈ n) : m = n := by
  have hdistinct {l : Memory} (hl : l.Pairwise fun c d => c.1 < d.1) : l.Nodup := hl.imp fun hlt heq => by
    rw [heq] at hlt
    exact lt_irrefl _ hlt
  exact ((List.perm_ext_iff_of_nodup (hdistinct hm) (hdistinct hn)).mpr h).eq_of_pairwise
    (fun c d _ _ hcd hdc => absurd hcd (lt_asymm hdc)) hm hn

/-! The obligations -/

/-- Settles O16. -/
theorem byteWriteChangesThatByteOnly : Obligations.ByteWriteChangesThatByteOnly := fun _ m i b hm hi =>
  ⟨Memory.wf_write hm hi b, by rw [Memory.read_write, if_pos rfl], fun k hk => by rw [Memory.read_write, if_neg hk]⟩

/-- Settles O17: the two buffers have the same cells, in the same order. -/
theorem canonicalBuffersThatReadAlikeAreEqual : Obligations.CanonicalBuffersThatReadAlikeAreEqual := by
  intro size m n hm hn hread
  refine Memory.eq_of_mem_iff hm.1 hn.1 fun c => ?_
  rw [Memory.mem_iff_read hm, Memory.mem_iff_read hn, hread]

end Sys2Proof.Machine
end

section
/-! A command as a function of what it reads: `effect` is the kind it raises or the update it makes, written as data,
and `exec_eq_finish` ties it to `exec`. That the effect depends on the command's row of reads alone, and that the update
writes the row of writes alone, is said once here; the statements over all commands follow. -/

namespace Sys2Proof.Machine

/-! Updates -/

/-- What a command that succeeds writes, ERR apart. -/
inductive Update where
  | acc (w : Width) (v : BitVec w.bits)
  | accAndR (w : Width) (v : BitVec w.bits) (x : Small)
  | r (x : Small)
  | z (b : Bool)
  | byte (p : Position) (b : Byte)
  | string (bytes : List Byte)

/-- The update made in a state. -/
def Update.apply (x : Update) (s : State) : State :=
  match x with
  | .acc w v => s.setAcc w v
  | .accAndR w v d => (s.setAcc w v).setR d
  | .r d => s.setR d
  | .z b => s.setZ b
  | .byte p b => s.setObuf (s.obuf.write p.toNat b)
  | .string bytes => s.emit bytes

/-- The pieces of state an update writes. -/
def Update.parts : Update → List Part
  | .acc w _ => [accPart w]
  | .accAndR w _ _ => [accPart w, .r]
  | .r _ => [.r]
  | .z _ => [.z]
  | .byte _ _ => [.obuf]
  | .string _ => [.obuf, .olen]

/-- The OBUF indices an update writes. -/
def Update.indices : Update → List Nat
  | .byte p _ => [p.toNat]
  | .string bytes => List.range bytes.length
  | .acc _ _ | .accAndR _ _ _ | .r _ | .z _ => []

theorem Update.apply_frame (x : Update) (s : State) : KeepsAllBut x.parts s (x.apply s) := by
  cases x with
  | acc w v => exact keepsAllBut_setAcc s w v
  | accAndR w v d => exact (keepsAllBut_setAcc s w v).append (keepsAllBut_setR _ d)
  | r d => exact keepsAllBut_setR s d
  | z b => exact keepsAllBut_setZ s b
  | byte p b => exact keepsAllBut_setObuf s _
  | string bytes => exact keepsAllBut_emit s bytes

theorem Update.apply_read_outside (x : Update) (s : State) {k : Nat} (hk : k ∉ x.indices) :
    (x.apply s).obuf.read k = s.obuf.read k := by
  cases x with
  | acc w v => rw [Update.apply, State.setAcc_obuf]
  | accAndR w v d => rw [Update.apply, State.setR_obuf, State.setAcc_obuf]
  | r d => rfl
  | z b => rfl
  | byte p b => rw [Update.apply, State.setObuf_obuf, Memory.read_write, if_neg (by simpa [Update.indices] using hk)]
  | string bytes => rw [Update.apply, read_emit, if_neg (by simpa [Update.indices] using hk)]

theorem accPart_agrees_iff {w : Width} {s t : State} : (accPart w).agrees s t ↔ t.acc w = s.acc w := by
  cases w <;> rfl

/-- The registers an update writes get values that do not depend on the state. -/
theorem Update.apply_agrees (x : Update) (s t : State) {p : Part} (hp : p ∈ x.parts) (hobuf : p ≠ .obuf) :
    p.agrees (x.apply s) (x.apply t) := by
  cases x with
  | acc w v =>
    obtain rfl := List.mem_singleton.mp hp
    rw [accPart_agrees_iff, Update.apply, Update.apply, State.setAcc_acc, State.setAcc_acc]
  | accAndR w v d =>
    obtain rfl | rfl := List.mem_pair.mp hp
    · simp only [accPart_agrees_iff, Update.apply, State.setR_acc, State.setAcc_acc]
    · simp only [Part.agrees, Update.apply, State.setR_r]
  | r d =>
    obtain rfl := List.mem_singleton.mp hp
    rfl
  | z b =>
    obtain rfl := List.mem_singleton.mp hp
    rfl
  | byte p b => exact absurd (List.mem_singleton.mp hp) hobuf
  | string bytes =>
    obtain rfl := (List.mem_pair.mp hp).resolve_left hobuf
    rfl

/-- The OBUF bytes an update writes do not depend on the state. -/
theorem Update.apply_read_agrees (x : Update) (s t : State) {k : Nat} (hk : k ∈ x.indices) :
    (x.apply s).obuf.read k = (x.apply t).obuf.read k := by
  cases x with
  | byte p b =>
    obtain rfl := List.mem_singleton.mp hk
    simp only [Update.apply, State.setObuf_obuf, Memory.read_write, if_pos]
  | string bytes =>
    have hlt := List.mem_range.mp hk
    rw [Update.apply, Update.apply, read_emit, read_emit, if_pos hlt, if_pos hlt]
  | acc w v | accAndR w v d | r d | z b => exact nomatch hk

theorem State.setErr_setErr (s : State) (e f : BitVec 3) : (s.setErr e).setErr f = s.setErr f := (rfl)

theorem Update.apply_setErr (x : Update) (s : State) (e : BitVec 3) :
    x.apply (s.setErr e) = (x.apply s).setErr e := by
  cases x with
  | acc w v | accAndR w v d => cases w <;> rfl
  | r d | z b | byte p b | string bytes => rfl

/-! The effect of a command -/

/-- The kind a command raises or the update it makes, from the registers and input bytes of its row. -/
def effect (i : Instr) (s : State) : Except ErrorKind Update :=
  match i with
  | .zero w => .ok (.acc w (BitVec.ofNat w.bits 0))
  | .ldbe w =>
    if s.ilen.toNat ≠ w.bytes then .error .invalidLength
    else .ok (.acc w (loadBigEndian w.bits (s.ibuf.readRange 0 w.bytes)))
  | .stbe w => .ok (.string (storeBigEndian w.bytes (s.acc w)))
  | .shl w n => .ok (.acc w (shiftLeft (s.acc w) n))
  | .shr w n => .ok (.acc w (shiftRight (s.acc w) n))
  | .orli w x => .ok (.acc w (orLow (s.acc w) x))
  | .orlr w => .ok (.acc w (orLow (s.acc w) s.r))
  | .low5 w => .ok (.r (lowestFive (s.acc w)))
  | .isz w => .ok (.z (isZero (s.acc w)))
  | .divs w d =>
    if d = 0#5 then .error .illegalCommand
    else .ok (.accAndR w (divSmall (s.acc w) d).1 (divSmall (s.acc w) d).2)
  | .dec w => .ok (.string (decimalString w (s.acc w)))
  | .b32e p => .ok (.byte p (alpha s.r))
  | .b32d p => (inv (s.ibuf.read p.toNat)).elim (.error .invalidCharacter) fun d => .ok (.r d)
  | .accenc =>
    if s.ilen.toNat ≠ 37 then .error .invalidLength
    else .ok (.string (encodeAddress (loadBigEndian 256 (s.ibuf.readRange 0 32))
      (loadLittleEndian 40 (s.ibuf.readRange 32 5))))
  | .accdec =>
    if s.ilen.toNat ≠ 64 then .error .invalidFormat
    else if !prefixAccepted (s.ibuf.readRange 0 4) then .error .invalidFormat
    else (invAll (s.ibuf.readRange 4 60)).elim (.error .invalidCharacter) fun ds =>
      .ok (.string (decodeAddressDigits ds))
  | .baldec =>
    if s.ilen.toNat ≠ 16 then .error .invalidLength
    else .ok (.string (decimalString .w128 (loadBigEndian 128 (s.ibuf.readRange 0 16))))
  | .balenc => .error .unimplemented

/-- A command ends in error entry or in the completion of its update (60_exceptions.md R109, R110). -/
def finish (s : State) : Except ErrorKind Update → Result
  | .error k => raise k s
  | .ok x => complete (x.apply s)

/-- A test that raises a kind ends the command there. -/
theorem finish_ite (s : State) (p : Prop) [Decidable p] (k : ErrorKind) (o : Except ErrorKind Update) :
    finish s (if p then .error k else o) = if p then raise k s else finish s o := by
  split <;> rfl

theorem exec_eq_finish (i : Instr) (s : State) : exec i s = finish s (effect i s) := by
  cases i
  case ldbe w => rw [effect, finish_ite]; rfl
  case divs w d => rw [effect, finish_ite]; rfl
  case b32d p =>
    cases hinv : inv (s.ibuf.read p.toNat) with
    | none => rw [effect, hinv, exec_b32d_of_bad_character hinv]; rfl
    | some d => rw [effect, hinv, exec_b32d_of_digit hinv]; rfl
  case accenc => rw [effect, finish_ite]; rfl
  case accdec =>
    rw [effect, finish_ite, finish_ite, exec, execAccdec]
    cases invAll (s.ibuf.readRange 4 60) <;> rfl
  case baldec => rw [effect, finish_ite]; rfl
  all_goals rfl

/-- How a command ends, and what it leaves. -/
theorem exec_next_cases {i : Instr} {s t : State} (h : exec i s = .next t) :
    (∃ k : ErrorKind, effect i s = .error k ∧ t = s.setErr k.code)
    ∨ ∃ x, effect i s = .ok x ∧ t = (x.apply s).setErr 0#3 := by
  rw [exec_eq_finish] at h
  cases heffect : effect i s with
  | error k =>
    rw [heffect, finish, raise_eq] at h
    exact .inl ⟨k, rfl, (Host.Outcome.next.inj h).symm⟩
  | ok x =>
    rw [heffect, finish, complete_eq] at h
    exact .inr ⟨x, rfl, (Host.Outcome.next.inj h).symm⟩

/-! What a command reads -/

theorem Memory.readRange_eq_iff {m n : Memory} {a len : Nat} :
    m.readRange a len = n.readRange a len ↔ ∀ k, k < len → m.read (a + k) = n.read (a + k) := by
  simp only [Memory.readRange, List.map_inj_left, List.mem_range]

/-- The effect of a command depends on the registers and the input bytes of its row alone. -/
theorem effect_congr (i : Instr) {s t : State} (hregs : ∀ p ∈ readsRegisters i, p.agrees s t)
    (hibuf : ∀ k ∈ readsIbuf i, s.ibuf.read k = t.ibuf.read k) : effect i s = effect i t := by
  have hilen (h : Part.ilen ∈ readsRegisters i) : s.ilen = t.ilen := (hregs .ilen h).symm
  have hr (h : Part.r ∈ readsRegisters i) : s.r = t.r := (hregs .r h).symm
  have hacc {w : Width} (h : accPart w ∈ readsRegisters i) : s.acc w = t.acc w :=
    (accPart_agrees_iff.mp (hregs _ h)).symm
  have hrange {a len : Nat} (h : ∀ k, k < len → a + k ∈ readsIbuf i) :
      s.ibuf.readRange a len = t.ibuf.readRange a len :=
    Memory.readRange_eq_iff.mpr fun k hk => hibuf _ (h k hk)
  cases i
  case zero w | balenc => rfl
  case ldbe w => rw [effect, effect, hilen (by simp [readsRegisters]), hrange (by simp [readsIbuf])]
  case stbe w | shl w n | shr w n | orli w x | low5 w | isz w | divs w d | dec w =>
    rw [effect, effect, hacc (by simp [readsRegisters])]
  case orlr w => rw [effect, effect, hacc (by simp [readsRegisters]), hr (by simp [readsRegisters])]
  case b32e p => rw [effect, effect, hr (by simp [readsRegisters])]
  case b32d p => rw [effect, effect, hibuf _ (by simp [readsIbuf])]
  case accenc =>
    rw [effect, effect, hilen (by simp [readsRegisters]), hrange (a := 0) (by simp [readsIbuf]; omega),
      hrange (a := 32) (by simp [readsIbuf]; omega)]
  case accdec =>
    rw [effect, effect, hilen (by simp [readsRegisters]), hrange (a := 0) (by simp [readsIbuf]; omega),
      hrange (a := 4) (by simp [readsIbuf]; omega)]
  case baldec => rw [effect, effect, hilen (by simp [readsRegisters]), hrange (by simp [readsIbuf])]

/-! What a command writes -/

theorem ite_error_eq_ok_iff {p : Prop} [Decidable p] {k : ErrorKind} {o : Except ErrorKind Update} {x : Update} :
    (if p then .error k else o) = Except.ok x ↔ ¬ p ∧ o = .ok x := by
  split <;> simp_all

/-- The update of a command writes the pieces and the OBUF indices of its row. -/
theorem effect_writes {i : Instr} {s : State} {x : Update} (h : effect i s = .ok x) :
    x.parts = writesParts i ∧ x.indices = writesObuf i s := by
  cases i
  case b32d p =>
    cases hinv : inv (s.ibuf.read p.toNat) with
    | none => rw [effect, hinv] at h; exact nomatch h
    | some d => rw [effect, hinv] at h; obtain rfl := Except.ok.inj h; exact ⟨rfl, rfl⟩
  case accdec =>
    rw [effect, ite_error_eq_ok_iff, ite_error_eq_ok_iff] at h
    obtain ⟨-, -, h⟩ := h
    cases hinv : invAll (s.ibuf.readRange 4 60) with
    | none => rw [hinv] at h; exact nomatch h
    | some ds =>
      rw [hinv] at h
      obtain rfl := Except.ok.inj h
      exact ⟨rfl, by rw [Update.indices, decodeAddressDigits_length, writesObuf]⟩
  case ldbe w | divs w d | baldec =>
    rw [effect, ite_error_eq_ok_iff] at h
    obtain rfl := Except.ok.inj h.2
    exact ⟨rfl, rfl⟩
  case accenc =>
    rw [effect, ite_error_eq_ok_iff] at h
    obtain rfl := Except.ok.inj h.2
    exact ⟨rfl, by rw [Update.indices, encodeAddress_length, writesObuf]⟩
  case stbe w =>
    obtain rfl := Except.ok.inj h
    exact ⟨rfl, by rw [Update.indices, storeBigEndian_length, writesObuf]⟩
  case balenc => exact nomatch h
  all_goals
    obtain rfl := Except.ok.inj h
    exact ⟨rfl, rfl⟩

/-- No row names an index outside OBUF. -/
theorem lt_obufSize_of_mem_writesObuf {i : Instr} {s : State} {k : Nat} (hk : k ∈ writesObuf i s) :
    k < Config.obufSize := by
  have hdecimal {w : Width} {v : BitVec w.bits} (h : k ∈ List.range (decimalString w v).length) : k < Config.obufSize :=
    lt_of_lt_of_le (List.mem_range.mp h) ((decimalString_length_le w v).trans (maxDecimalDigits_le_obufSize w))
  cases i
  case stbe w => cases w <;> exact lt_trans (List.mem_range.mp hk) (by decide)
  case dec w => exact hdecimal hk
  case baldec => exact hdecimal hk
  case b32e p =>
    obtain rfl := List.mem_singleton.mp hk
    exact lt_trans p.isLt (by decide)
  case accenc | accdec => exact lt_trans (List.mem_range.mp hk) (by decide)
  all_goals exact nomatch hk

/-! The invariant -/

theorem State.inv_setPending {s : State} (h : s.inv) (ts : List Transaction) : (s.setPending ts).inv := h

theorem State.inv_setReply {s : State} (h : s.inv) (v : Reply) : (s.setReply v).inv := h

theorem State.inv_setErr {s : State} (h : s.inv) {e : BitVec 3} (he : e.toNat ≤ 5) : (s.setErr e).inv := by
  obtain ⟨hibuf, hobuf, -, holen⟩ := h
  exact ⟨hibuf, hobuf, he, holen⟩

theorem ErrorKind.toNat_code_le (k : ErrorKind) : k.code.toNat ≤ 5 := by cases k <;> decide

/-- An update inside OBUF keeps the invariant. -/
theorem State.inv_apply {s : State} (h : s.inv) {x : Update} (hx : ∀ k ∈ x.indices, k < Config.obufSize) :
    (x.apply s).inv := by
  obtain ⟨hibuf, hobuf, herr, holen⟩ := h
  cases x with
  | acc w v | accAndR w v d => cases w <;> exact ⟨hibuf, hobuf, herr, holen⟩
  | r d | z b => exact ⟨hibuf, hobuf, herr, holen⟩
  | byte p b => exact ⟨hibuf, Memory.wf_write hobuf (hx _ List.mem_cons_self) b, herr, holen⟩
  | string bytes =>
    have hlen : bytes.length ≤ Config.obufSize :=
      Nat.le_of_not_lt fun hlt => lt_irrefl _ (hx Config.obufSize (List.mem_range.mpr hlt))
    refine ⟨hibuf, Memory.wf_writeRange hobuf bytes (by omega), herr, ?_⟩
    rw [Update.apply, State.emit_olen, BitVec.toNat_ofNat]
    exact (Nat.mod_le _ _).trans hlen

theorem exec_keeps_inv {i : Instr} {s t : State} (hs : s.inv) (h : exec i s = .next t) : t.inv := by
  obtain ⟨k, -, rfl⟩ | ⟨x, hx, rfl⟩ := exec_next_cases h
  · exact State.inv_setErr hs k.toNat_code_le
  · obtain ⟨-, hindices⟩ := effect_writes hx
    refine State.inv_setErr (State.inv_apply hs fun k hk => ?_) (by decide)
    rw [hindices] at hk
    exact lt_obufSize_of_mem_writesObuf hk

theorem hostIssue_keeps_inv {word : CommandWord} {s t : State} (hs : s.inv) (h : hostIssue word s = .next t) :
    t.inv := by
  cases hd : decode word with
  | ok i =>
    obtain ⟨u, hu⟩ := exec_completes i s
    simp only [hostIssue, hd, hu, answerErr] at h
    obtain rfl := Host.Outcome.next.inj h
    exact State.inv_setReply (exec_keeps_inv hs hu) _
  | error e =>
    rw [hostIssue_of_refused s hd] at h
    obtain rfl := Host.Outcome.next.inj h
    exact State.inv_setReply (State.inv_setErr hs (ErrorKind.toNat_code_le _)) _

theorem State.inv_reset : State.reset.inv := by
  obtain ⟨hibuf, hobuf⟩ := State.reset_buffers_wf
  exact ⟨hibuf, hobuf, by decide, by decide⟩

theorem applyTransaction_keeps_inv {x : Transaction} {s t : State} (hs : s.inv)
    (h : applyTransaction x s = .next t) : t.inv := by
  cases x with
  | issue word => exact hostIssue_keeps_inv hs h
  | writeIbuf i b =>
    obtain rfl := Host.Outcome.next.inj h
    obtain ⟨hibuf, hrest⟩ := hs
    exact ⟨Memory.wf_write hibuf i.isLt b, hrest⟩
  | setIlen n =>
    obtain rfl := Host.Outcome.next.inj h
    exact hs
  | read port =>
    obtain rfl := Host.Outcome.next.inj h
    exact State.inv_setReply hs _
  | reset =>
    obtain rfl := Host.Outcome.next.inj h
    exact State.inv_setPending State.inv_reset _

/-! Failures and repetition -/

theorem accPart_ne_err (w : Width) : accPart w ≠ .err := by cases w <;> decide

theorem err_not_mem_readsRegisters (i : Instr) : Part.err ∉ readsRegisters i := by
  cases i <;> simp [readsRegisters, (accPart_ne_err _).symm]

theorem ibuf_not_mem_writesParts (i : Instr) : Part.ibuf ∉ writesParts i := by
  cases i <;> simp [writesParts, (accPart_ne_ibuf _).symm]

/-- A command that is not in place writes none of the registers it reads (20_memory.md R38). -/
theorem not_mem_writesParts_of_mem_readsRegisters {i : Instr} (hi : inPlace i = false) :
    ∀ p ∈ readsRegisters i, p ∉ writesParts i := by
  cases i
  case ldbe w | stbe w | low5 w | isz w | dec w => cases w <;> decide
  case shl w n | shr w n | orli w x | orlr w | divs w d => exact nomatch hi
  case zero w => simp [readsRegisters]
  case b32e p => simp [readsRegisters, writesParts]
  case b32d p => simp [readsRegisters]
  all_goals decide

/-- No command reads ERR, and every command writes it last. -/
theorem exec_setErr (i : Instr) (s : State) (e : BitVec 3) : exec i (s.setErr e) = exec i s := by
  have heffect : effect i s = effect i (s.setErr e) := by
    refine effect_congr i (fun p hp => keepsAllBut_setErr s e p fun herr => ?_) fun k _ => by rw [State.setErr_ibuf]
    exact err_not_mem_readsRegisters i (List.mem_singleton.mp herr ▸ hp)
  rw [exec_eq_finish, exec_eq_finish, heffect]
  cases effect i (s.setErr e) with
  | error k => simp only [finish, raise_eq, State.setErr_setErr]
  | ok x => simp only [finish, complete_eq, Update.apply_setErr, State.setErr_setErr]

/-- An update made twice is the update made once. -/
theorem Update.apply_apply (x : Update) (s : State) : KeepsAllBut [] (x.apply s) (x.apply (x.apply s)) := by
  intro p _
  by_cases hobuf : p = .obuf
  · subst hobuf
    intro k
    by_cases hk : k ∈ x.indices
    · exact x.apply_read_agrees _ _ hk
    · exact x.apply_read_outside _ hk
  · by_cases hp : p ∈ x.parts
    · exact x.apply_agrees _ _ hp hobuf
    · exact x.apply_frame _ p hp

theorem Part.agrees_setErr {p : Part} {s t : State} (h : p.agrees s t) (e : BitVec 3) :
    p.agrees (s.setErr e) (t.setErr e) := by
  cases p with
  | err => rfl
  | a128 | a256 | r | z | ilen | olen | ibuf | obuf | pending | reply => exact h

/-- A command that is not in place has the same effect where its own update has been made. -/
theorem effect_apply {i : Instr} {s : State} {x : Update} (hi : inPlace i = false) (hx : effect i s = .ok x) :
    effect i (x.apply s) = .ok x := by
  obtain ⟨hparts, -⟩ := effect_writes hx
  have hframe := x.apply_frame s
  rw [hparts] at hframe
  rw [← hx]
  exact (effect_congr i (fun p hp => hframe p (not_mem_writesParts_of_mem_readsRegisters hi p hp))
    fun k _ => (hframe .ibuf (ibuf_not_mem_writesParts i) k).symm).symm

/-! The obligations -/

/-- Settles O15: a command writes inside OBUF with a length that fits OLEN, and of the other transactions only a write
to IBUF touches a buffer. -/
theorem stepKeepsTheInvariant : Obligations.StepKeepsTheInvariant := by
  intro s t hs h
  cases hpending : s.pending with
  | nil =>
    obtain rfl := Host.Outcome.next.inj ((step_of_idle hpending).symm.trans h)
    exact hs
  | cons x rest =>
    rw [step_of_pending_cons hpending] at h
    exact applyTransaction_keeps_inv (State.inv_setPending hs rest) h

/-- Settles O14. -/
theorem resetMeetsTheInvariant : Obligations.ResetMeetsTheInvariant := State.inv_reset

/-- Settles O18: a failed command writes ERR alone, and the update of any other writes the row. -/
theorem commandWritesOnlyItsTableRow : Obligations.CommandWritesOnlyItsTableRow := by
  intro i s t h
  obtain ⟨k, -, rfl⟩ | ⟨x, hx, rfl⟩ := exec_next_cases h
  · exact ⟨(keepsAllBut_setErr s _).mono (by simp), fun k _ => by rw [State.setErr_obuf]⟩
  · obtain ⟨hparts, hindices⟩ := effect_writes hx
    rw [← hparts, ← hindices]
    refine ⟨((x.apply_frame s).setErr 0#3).mono (by simp), fun k hk => ?_⟩
    rw [State.setErr_obuf, x.apply_read_outside s hk]

/-- Settles O19: the two states have one effect, and what an update writes does not depend on the state. -/
theorem commandReadsOnlyItsTableRow : Obligations.CommandReadsOnlyItsTableRow := by
  intro i s₁ s₂ t₁ t₂ hregs hibuf h₁ h₂
  rw [exec_eq_finish] at h₁ h₂
  rw [← effect_congr i hregs hibuf] at h₂
  cases heffect : effect i s₁ with
  | error k =>
    rw [heffect, finish, raise_eq] at h₁ h₂
    obtain rfl := Host.Outcome.next.inj h₁
    obtain rfl := Host.Outcome.next.inj h₂
    exact ⟨by simp, fun herr => absurd herr k.code_ne_zero⟩
  | ok x =>
    rw [heffect, finish, complete_eq] at h₁ h₂
    obtain rfl := Host.Outcome.next.inj h₁
    obtain rfl := Host.Outcome.next.inj h₂
    obtain ⟨hparts, hindices⟩ := effect_writes heffect
    rw [← hparts, ← hindices]
    exact ⟨by simp, fun _ => ⟨fun p hp hobuf => Part.agrees_setErr (x.apply_agrees s₁ s₂ hp hobuf) 0#3,
      fun k hk => x.apply_read_agrees s₁ s₂ hk⟩⟩

/-- Settles O23: a failure leaves the state with another ERR, which no command looks at. -/
theorem failureLeavesNoTrace : Obligations.FailureLeavesNoTrace := by
  intro i j s t h herr
  obtain ⟨k, -, rfl⟩ | ⟨x, -, rfl⟩ := exec_next_cases h
  · exact exec_setErr j s _
  · exact absurd (State.setErr_err _ _) herr

/-- Settles O25: the command reads nothing it wrote, so it makes the same update again. -/
theorem repeatedCommandGivesTheSameOutputs : Obligations.RepeatedCommandGivesTheSameOutputs := by
  intro i s t hi h herr
  obtain ⟨k, -, rfl⟩ | ⟨x, hx, rfl⟩ := exec_next_cases h
  · exact absurd herr k.code_ne_zero
  · refine ⟨(x.apply (x.apply s)).setErr 0#3, ?_, fun p hp => Part.agrees_setErr (x.apply_apply s p hp) 0#3⟩
    rw [exec_setErr, exec_eq_finish, effect_apply hi hx, finish, complete_eq]

end Sys2Proof.Machine
end

section
/-! The byte orders of 00_scope.md R8. A store followed by a load is a statement about values, proved digit by digit; a
load followed by a store is a statement about strings, and follows from the digit lemmas of Laws/Strings.lean. -/

namespace Sys2Proof.Machine

/-! Values of strings put together -/

theorem bigEndianValue_append (front back : List Byte) :
    bigEndianValue (front ++ back) = bigEndianValue front * 256 ^ back.length + bigEndianValue back := by
  induction front with
  | nil => simp [bigEndianValue]
  | cons b rest ih =>
    rw [List.cons_append, bigEndianValue, ih, bigEndianValue, List.length_append, pow_add]
    ring

theorem littleEndianValue_append (front back : List Byte) :
    littleEndianValue (front ++ back) = littleEndianValue front + 256 ^ front.length * littleEndianValue back := by
  induction front with
  | nil => simp [littleEndianValue]
  | cons b rest ih =>
    rw [List.cons_append, littleEndianValue, ih, littleEndianValue, List.length_cons, pow_succ]
    ring

theorem Memory.readRange_add (m : Memory) (a k n : Nat) :
    m.readRange a (k + n) = m.readRange a k ++ m.readRange (a + k) n := by
  simp only [Memory.readRange, List.range_add, List.map_append, List.map_map, Function.comp_def, Nat.add_assoc]

/-! The value of a stored string -/

theorem storeBigEndian_succ {W : Nat} (n : Nat) (v : BitVec W) :
    storeBigEndian (n + 1) v = BitVec.ofNat 8 (v.toNat / 256 ^ n) :: storeBigEndian n v := by
  rw [storeBigEndian, List.range_succ_eq_map, List.map_cons, List.map_map, storeBigEndian]
  congr 1
  refine List.map_congr_left fun i _ => ?_
  rw [Function.comp_apply, show n + 1 - 1 - i.succ = n - 1 - i by omega]

theorem storeLittleEndian_succ {W : Nat} (n : Nat) (v : BitVec W) :
    storeLittleEndian (n + 1) v = storeLittleEndian n v ++ [BitVec.ofNat 8 (v.toNat / 256 ^ n)] := by
  rw [storeLittleEndian, List.range_succ, List.map_append, List.map_singleton, storeLittleEndian]

/-- The n lowest bytes of a value, stored big-endian. -/
theorem bigEndianValue_storeBigEndian {W : Nat} (n : Nat) (v : BitVec W) :
    bigEndianValue (storeBigEndian n v) = v.toNat % 256 ^ n := by
  induction n with
  | zero => rw [pow_zero, Nat.mod_one]; rfl
  | succ n ih =>
    rw [storeBigEndian_succ, bigEndianValue, ih, storeBigEndian_length, BitVec.toNat_ofNat,
      Nat.mod_pow_succ (b := 256)]
    ring

/-- The n lowest bytes of a value, stored little-endian. -/
theorem littleEndianValue_storeLittleEndian {W : Nat} (n : Nat) (v : BitVec W) :
    littleEndianValue (storeLittleEndian n v) = v.toNat % 256 ^ n := by
  induction n with
  | zero => rw [pow_zero, Nat.mod_one]; rfl
  | succ n ih =>
    rw [storeLittleEndian_succ, littleEndianValue_append, ih, storeLittleEndian_length, littleEndianValue,
      littleEndianValue, BitVec.toNat_ofNat, Nat.mod_pow_succ (b := 256), Nat.mul_zero, Nat.add_zero]

/-! Load and store -/

section Inverse

variable {W n : Nat} (hW : 256 ^ n = 2 ^ W)
include hW

theorem loadBigEndian_storeBigEndian (v : BitVec W) : loadBigEndian W (storeBigEndian n v) = v := by
  apply BitVec.eq_of_toNat_eq
  rw [toNat_loadBigEndian _ (by rw [storeBigEndian_length, hW]), bigEndianValue_storeBigEndian, hW,
    Nat.mod_eq_of_lt v.isLt]

theorem loadLittleEndian_storeLittleEndian (v : BitVec W) : loadLittleEndian W (storeLittleEndian n v) = v := by
  apply BitVec.eq_of_toNat_eq
  rw [toNat_loadLittleEndian _ (by rw [storeLittleEndian_length, hW]), littleEndianValue_storeLittleEndian, hW,
    Nat.mod_eq_of_lt v.isLt]

theorem storeBigEndian_loadBigEndian {bytes : List Byte} (hlen : bytes.length = n) :
    storeBigEndian n (loadBigEndian W bytes) = bytes := by
  refine List.ext_getElem (by rw [storeBigEndian_length, hlen]) fun i hi hi' => BitVec.eq_of_toNat_eq ?_
  rw [← List.getD_eq_getElem _ 0#8 hi, ← List.getD_eq_getElem _ 0#8 hi', storeBigEndian_getD n _ i (hlen ▸ hi'),
    toNat_loadBigEndian bytes (by rw [hlen, hW]), ← hlen, bigEndianValue_digit bytes i hi']

theorem storeLittleEndian_loadLittleEndian {bytes : List Byte} (hlen : bytes.length = n) :
    storeLittleEndian n (loadLittleEndian W bytes) = bytes := by
  refine List.ext_getElem (by rw [storeLittleEndian_length, hlen]) fun i hi hi' => BitVec.eq_of_toNat_eq ?_
  rw [← List.getD_eq_getElem _ 0#8 hi, ← List.getD_eq_getElem _ 0#8 hi', storeLittleEndian_getD n _ i (hlen ▸ hi'),
    toNat_loadLittleEndian bytes (by rw [hlen, hW]), littleEndianValue_digit bytes i hi']

end Inverse

/-! The obligations -/

/-- Settles O36: the 32 bytes are the 16 bytes followed by 16 others, which weigh less than 2^128. -/
theorem narrowLoadIsTheHighHalfOfTheWideLoad : Obligations.NarrowLoadIsTheHighHalfOfTheWideLoad := by
  intro s₁ s₂ hlen₁ hlen₂ hibuf
  obtain ⟨t₁, ht₁, hacc₁, -⟩ := completes_of_setAcc (exec_ldbe_of_length (w := .w128) hlen₁)
  obtain ⟨t₂, ht₂, hacc₂, -⟩ := completes_of_setAcc (exec_ldbe_of_length (w := .w256) hlen₂)
  rw [State.acc_w128] at hacc₁
  rw [State.acc_w256] at hacc₂
  have hsame : s₁.ibuf.readRange 0 16 = s₂.ibuf.readRange 0 16 :=
    Memory.readRange_eq_iff.mpr fun k hk => by rw [Nat.zero_add, hibuf k hk]
  have hlow := bigEndianValue_lt (s₂.ibuf.readRange 16 16)
  have hpow : 256 ^ 16 = 2 ^ 128 := by decide
  rw [Memory.readRange_length, hpow] at hlow
  refine ⟨t₁, t₂, ht₁, ht₂, ?_⟩
  rw [hacc₁, hacc₂, toNat_loadBigEndian_readRange _ .w128, toNat_loadBigEndian_readRange _ .w256, hsame,
    Memory.readRange_add _ 0 16 16, bigEndianValue_append, Memory.readRange_length, hpow, Nat.zero_add,
    Nat.mul_comm, Nat.mul_add_div (by decide), Nat.div_eq_of_lt hlow, Nat.add_zero]

/-- Settles O37. -/
theorem loadAndStoreAreInverse : Obligations.LoadAndStoreAreInverse :=
  ⟨fun w _ hlen => storeBigEndian_loadBigEndian (pow_bytes_eq_pow_bits w) hlen,
    fun w v => loadBigEndian_storeBigEndian (pow_bytes_eq_pow_bits w) v,
    fun _ hlen => storeLittleEndian_loadLittleEndian (by decide) hlen,
    fun v => loadLittleEndian_storeLittleEndian (by decide) v⟩

end Sys2Proof.Machine
end

section
/-! The laws of the account codec (42_base32_account.md, sections 4 to 6). `pushDigit` and the pair of low five bits and
shift by 5 are inverse to each other as long as no bit is shifted out; from that the digits of a value and the value of
digits are inverse, and an address and its 37 bytes are. -/

namespace Sys2Proof.Machine

/-! Buffer ranges -/

theorem Memory.readRange_four (m : Memory) : m.readRange 0 4 = [m.read 0, m.read 1, m.read 2, m.read 3] := rfl

/-- A command that completes with an output string leaves the string at the start of OBUF. -/
theorem readRange_of_exec_emit {i : Instr} {s t : State} {bytes : List Byte} {len : Nat}
    (h : exec i s = complete (s.emit bytes)) (ht : exec i s = .next t) (hlen : bytes.length = len) :
    t.obuf.readRange 0 len = bytes := by
  obtain ⟨u, hu, hread, -⟩ := completes_of_emit h
  obtain rfl : u = t := Host.Outcome.next.inj (hu.symm.trans ht)
  refine List.ext_getElem (by rw [Memory.readRange_length, hlen]) fun k hk hk' => ?_
  rw [Memory.readRange_getElem, Nat.zero_add, hread k hk', List.getD_eq_getElem _ _ hk']

/-! One digit -/

/-- Shift left by 5, then OR in the digit (42_base32_account.md R92). -/
def pushDigit {W : Nat} (v : BitVec W) (d : Small) : BitVec W := orLow (shiftLeft v 5#5) d

theorem accumulateDigits_eq_foldl (W : Nat) (ds : List Small) :
    accumulateDigits W ds = ds.foldl pushDigit (BitVec.ofNat W 0) := rfl

section Digits

variable {W : Nat} (hW : 5 ≤ W)
include hW

theorem toNat_pushDigit (v : BitVec W) (d : Small) : (pushDigit v d).toNat = (v.toNat * 32 + d.toNat) % 2 ^ W := by
  simpa [pushDigit] using accumulate_toNat hW [d] v

theorem pow_eq_mul_32 : 2 ^ W = 32 * 2 ^ (W - 5) := by
  rw [show 32 = 2 ^ 5 from rfl, ← pow_add, Nat.add_sub_cancel' hW]

theorem toNat_pushDigit_zero (d : Small) : (pushDigit (BitVec.ofNat W 0) d).toNat = d.toNat := by
  rw [toNat_pushDigit hW, BitVec.toNat_ofNat, Nat.zero_mod, Nat.zero_mul, Nat.zero_add]
  exact Nat.mod_eq_of_lt (lt_of_lt_of_le d.isLt (Nat.pow_le_pow_right (by decide) hW))

theorem lowestFive_pushDigit (v : BitVec W) (d : Small) : lowestFive (pushDigit v d) = d := by
  have hd := d.isLt
  apply BitVec.eq_of_toNat_eq
  rw [toNat_lowestFive, toNat_pushDigit hW, Nat.mod_mod_of_dvd _ ⟨_, pow_eq_mul_32 hW⟩]
  omega

theorem shiftRight_pushDigit {v : BitVec W} (hv : v.toNat * 32 < 2 ^ W) (d : Small) :
    shiftRight (pushDigit v d) 5#5 = v := by
  have hd := d.isLt
  have hpow := pow_eq_mul_32 hW
  apply BitVec.eq_of_toNat_eq
  rw [toNat_shiftRight, toNat_pushDigit hW, Nat.mod_eq_of_lt (by omega), show 2 ^ (5#5 : Small).toNat = 32 from rfl]
  omega

theorem pushDigit_shiftRight_lowestFive (v : BitVec W) : pushDigit (shiftRight v 5#5) (lowestFive v) = v := by
  apply BitVec.eq_of_toNat_eq
  rw [toNat_pushDigit hW, toNat_shiftRight, toNat_lowestFive, show 2 ^ (5#5 : Small).toNat = 32 from rfl,
    Nat.div_add_mod', Nat.mod_eq_of_lt v.isLt]

/-! The digits of a value -/

/-- Enough digits of a value accumulate to the value. -/
theorem accumulateDigits_digitsLowFirst {n : Nat} {v : BitVec W} (hv : v.toNat < 32 ^ n) :
    accumulateDigits W (digitsLowFirst n v).reverse = v := by
  induction n generalizing v with
  | zero =>
    apply BitVec.eq_of_toNat_eq
    rw [Nat.lt_one_iff.mp hv, digitsLowFirst, List.reverse_nil, accumulateDigits, List.foldl_nil, BitVec.toNat_ofNat,
      Nat.zero_mod]
  | succ n ih =>
    have hrest : (shiftRight v 5#5).toNat < 32 ^ n := by
      rw [toNat_shiftRight]
      exact Nat.div_lt_of_lt_mul (by rwa [pow_succ, Nat.mul_comm] at hv)
    rw [digitsLowFirst, List.reverse_cons, accumulateDigits_eq_foldl, List.foldl_append, ← accumulateDigits_eq_foldl,
      ih hrest, List.foldl_cons, List.foldl_nil, pushDigit_shiftRight_lowestFive hW]

theorem toNat_foldl_pushDigit_lt (ds : List Small) (v : BitVec W) :
    (ds.foldl pushDigit v).toNat < (v.toNat + 1) * 32 ^ ds.length := by
  induction ds using List.reverseRecOn with
  | nil => simp
  | append_singleton ds d ih =>
    have hd := d.isLt
    have hle := Nat.mod_le ((ds.foldl pushDigit v).toNat * 32 + d.toNat) (2 ^ W)
    rw [List.foldl_append, List.foldl_cons, List.foldl_nil, toNat_pushDigit hW, List.length_append,
      List.length_singleton, pow_succ, ← Nat.mul_assoc]
    omega

/-- Digits that push no bit out of the word can all be taken off again. -/
theorem digitsLowFirst_foldl_pushDigit (ds : List Small) {v : BitVec W} (k : Nat)
    (hv : (v.toNat + 1) * 32 ^ ds.length ≤ 2 ^ W) :
    digitsLowFirst (ds.length + k) (ds.foldl pushDigit v) = ds.reverse ++ digitsLowFirst k v := by
  induction ds using List.reverseRecOn with
  | nil => rw [List.length_nil, Nat.zero_add]; rfl
  | append_singleton ds d ih =>
    rw [List.length_append, List.length_singleton, pow_succ, ← Nat.mul_assoc] at hv
    have hlt := toNat_foldl_pushDigit_lt hW ds v
    have hroom : (ds.foldl pushDigit v).toNat * 32 < 2 ^ W := by omega
    rw [List.length_append, List.length_singleton, Nat.add_right_comm, digitsLowFirst, List.foldl_append,
      List.foldl_cons, List.foldl_nil, lowestFive_pushDigit hW, shiftRight_pushDigit hW hroom, ih (by omega),
      List.reverse_append, List.reverse_singleton, List.singleton_append, List.cons_append]

end Digits

/-! The 60 digits of an address -/

/-- The digits of a key and a checksum integer, the most significant of each first. -/
def addressDigits (key : BitVec 256) (checksum : BitVec 40) : List Small :=
  (digitsLowFirst 52 key).reverse ++ (digitsLowFirst 8 checksum).reverse

theorem encodeAddress_eq (key : BitVec 256) (checksum : BitVec 40) :
    encodeAddress key checksum = addressPrefix ++ (addressDigits key checksum).map alpha := by
  rw [encodeAddress, digitString, digitString, addressDigits, List.map_append, List.append_assoc]

/-- 52 digits hold any key and 8 any checksum integer, so decoding gives both back. -/
theorem decodeAddressDigits_addressDigits (key : BitVec 256) (checksum : BitVec 40) :
    decodeAddressDigits (addressDigits key checksum) = storeBigEndian 32 key ++ storeLittleEndian 5 checksum := by
  have hlen : (digitsLowFirst 52 key).reverse.length = 52 := by rw [List.length_reverse, digitsLowFirst_length]
  rw [decodeAddressDigits, addressDigits, List.take_left' hlen, List.drop_left' hlen,
    accumulateDigits_digitsLowFirst (by decide) (lt_trans key.isLt (by decide)),
    accumulateDigits_digitsLowFirst (by decide) (lt_of_lt_of_le checksum.isLt (by decide))]

theorem accumulateDigits_cons (W : Nat) (d : Small) (ds : List Small) :
    accumulateDigits W (d :: ds) = ds.foldl pushDigit (pushDigit (BitVec.ofNat W 0) d) := rfl

/-- A first key digit of 0 or 1 pushes no bit out of the key, so its digits are those it was accumulated from. -/
theorem addressDigits_accumulateDigits {d : Small} {rest : List Small} (hlen : rest.length = 59) (hd : d.toNat < 2) :
    addressDigits (accumulateDigits 256 ((d :: rest).take 52)) (accumulateDigits 40 ((d :: rest).drop 52))
      = d :: rest := by
  have hkeyLen : (rest.take 51).length = 51 := by rw [List.length_take]; omega
  have hchecksumLen : (rest.drop 51).length = 8 := by rw [List.length_drop]; omega
  have hkey : digitsLowFirst 52 (accumulateDigits 256 (d :: rest.take 51)) = (d :: rest.take 51).reverse := by
    have hroom : ((pushDigit (BitVec.ofNat 256 0) d).toNat + 1) * 32 ^ (rest.take 51).length ≤ 2 ^ 256 := by
      rw [toNat_pushDigit_zero (by decide), hkeyLen]
      calc (d.toNat + 1) * 32 ^ 51 ≤ 2 * 32 ^ 51 := Nat.mul_le_mul_right _ hd
        _ = 2 ^ 256 := by decide
    have hdigits := digitsLowFirst_foldl_pushDigit (by decide) (rest.take 51) 1 hroom
    have hlead : digitsLowFirst 1 (pushDigit (BitVec.ofNat 256 0) d) = [d] := by
      rw [digitsLowFirst, digitsLowFirst, lowestFive_pushDigit (W := 256) (by decide)]
    rwa [hkeyLen, hlead, ← List.reverse_cons, ← accumulateDigits_cons] at hdigits
  have hchecksum : digitsLowFirst 8 (accumulateDigits 40 (rest.drop 51)) = (rest.drop 51).reverse := by
    have hdigits := digitsLowFirst_foldl_pushDigit (W := 40) (by decide) (rest.drop 51) (v := BitVec.ofNat 40 0) 0
      (by rw [hchecksumLen]; decide)
    rwa [hchecksumLen, digitsLowFirst, List.append_nil, ← accumulateDigits_eq_foldl] at hdigits
  rw [List.take_succ_cons, List.drop_succ_cons, addressDigits, hkey, hchecksum, List.reverse_reverse,
    List.reverse_reverse, List.cons_append, List.take_append_drop]

/-- Of the first key digit only the lowest bit stays in 256 bits after 51 more digits. -/
theorem accumulateDigits_cons_congr {d₁ d₂ : Small} {ds : List Small} (hlen : ds.length = 51)
    (hparity : d₁.toNat % 2 = d₂.toNat % 2) :
    accumulateDigits 256 (d₁ :: ds) = accumulateDigits 256 (d₂ :: ds) := by
  have hvalue (d : Small) : (accumulateDigits 256 (d :: ds)).toNat =
      (d.toNat * 32 ^ 51 + ∑ i ∈ Finset.range 51, (ds.getD i 0#5).toNat * 32 ^ (50 - i)) % 2 ^ 256 := by
    have hsum := accumulate_toNat (by decide) ds (pushDigit (BitVec.ofNat 256 0) d)
    rwa [toNat_pushDigit_zero (by decide), hlen] at hsum
  have hlead : d₁.toNat * 32 ^ 51 ≡ d₂.toNat * 32 ^ 51 [MOD 2 * 32 ^ 51] := Nat.ModEq.mul_right' _ hparity
  apply BitVec.eq_of_toNat_eq
  rw [hvalue, hvalue, show 2 ^ 256 = 2 * 32 ^ 51 by decide]
  exact hlead.add_right _

theorem decodeAddressDigits_congr {d₁ d₂ : Small} {rest : List Small} (hlen : rest.length = 59)
    (hparity : d₁.toNat % 2 = d₂.toNat % 2) :
    decodeAddressDigits (d₁ :: rest) = decodeAddressDigits (d₂ :: rest) := by
  rw [decodeAddressDigits, decodeAddressDigits, List.take_succ_cons, List.take_succ_cons, List.drop_succ_cons,
    List.drop_succ_cons, accumulateDigits_cons_congr (by rw [List.length_take]; omega) hparity]

/-! The addresses that ACCDEC accepts -/

theorem invAll_map_alpha (ds : List Small) : invAll (ds.map alpha) = some ds := by
  induction ds with
  | nil => rfl
  | cons d ds ih => simp only [List.map_cons, invAll, inv_alpha, ih]

/-- `invAll` reads off the digits whose characters a string holds. -/
theorem invAll_eq_some_iff {bytes : List Byte} {ds : List Small} : invAll bytes = some ds ↔ bytes = ds.map alpha := by
  constructor
  · intro h
    obtain ⟨hlen, hinv⟩ := invAll_getD h
    refine List.ext_getElem (by rw [List.length_map, hlen]) fun i hi hi' => ?_
    have hdigit := (inv_eq_some_iff _ _).mp (hinv i hi)
    rw [List.getD_eq_getElem _ _ hi, List.getD_eq_getElem _ _ (hlen ▸ hi)] at hdigit
    rw [List.getElem_map, hdigit]
  · rintro rfl
    exact invAll_map_alpha ds

/-- IBUF presents an address that ACCDEC accepts, and ds are its 60 digits. -/
structure AcceptedAddress (s : State) (ds : List Small) : Prop where
  length : s.ilen.toNat = 64
  prefixed : PrefixIsXrb s
  characters : s.ibuf.readRange 4 60 = ds.map alpha

namespace AcceptedAddress

variable {s : State} {ds : List Small}

theorem exec_accdec (h : AcceptedAddress s ds) : exec .accdec s = complete (s.emit (decodeAddressDigits ds)) :=
  exec_accdec_of_digits h.length h.prefixed (invAll_eq_some_iff.mpr h.characters)

theorem digits_length (h : AcceptedAddress s ds) : ds.length = 60 := by
  rw [← List.length_map (f := alpha), ← h.characters, Memory.readRange_length]

theorem read (h : AcceptedAddress s ds) {k : Nat} (hk : k < 60) : s.ibuf.read (4 + k) = alpha (ds.getD k 0#5) := by
  have hk' : k < ds.length := by rwa [h.digits_length]
  have hchar : (s.ibuf.readRange 4 60)[k]'(by rwa [Memory.readRange_length]) = (ds.map alpha)[k]'(by simpa) := by
    simp only [h.characters]
  rwa [Memory.readRange_getElem, List.getElem_map, ← List.getD_eq_getElem _ 0#5 hk'] at hchar

theorem readRange_all (h : AcceptedAddress s ds) : s.ibuf.readRange 0 64 = s.ibuf.readRange 0 4 ++ ds.map alpha := by
  rw [Memory.readRange_add _ 0 4 60, Nat.zero_add, h.characters]

end AcceptedAddress

/-- ACCDEC succeeds on accepted addresses alone. -/
theorem exists_acceptedAddress {s t : State} (h : exec .accdec s = .next t) (herr : t.err = 0#3) :
    ∃ ds, AcceptedAddress s ds := by
  obtain ⟨k, -, hraise⟩ | ⟨-, hnone⟩ := exec_ends_by_cause .accdec s
  · rw [hraise, raise_eq] at h
    obtain rfl := Host.Outcome.next.inj h
    exact absurd herr k.code_ne_zero
  · obtain ⟨hlen, hprefix⟩ := format_of_not_hasCause (hnone _)
    have hcharacters := (invAll_address_eq_none_iff s).not.mpr (hnone _)
    obtain ⟨ds, hds⟩ := Option.ne_none_iff_exists'.mp hcharacters
    exact ⟨ds, hlen, hprefix, invAll_eq_some_iff.mp hds⟩

/-! The bytes that ACCENC reads -/

theorem Memory.readRange_key_checksum (m : Memory) :
    m.readRange 0 37 = storeBigEndian 32 (loadBigEndian 256 (m.readRange 0 32))
      ++ storeLittleEndian 5 (loadLittleEndian 40 (m.readRange 32 5)) := by
  rw [Memory.readRange_add _ 0 32 5, Nat.zero_add,
    storeBigEndian_loadBigEndian (by decide) (Memory.readRange_length _ _ _),
    storeLittleEndian_loadLittleEndian (by decide) (Memory.readRange_length _ _ _)]

/-- The 37 bytes of a key and a checksum integer are read as that key and that integer. -/
theorem load_of_readRange {m : Memory} {key : BitVec 256} {checksum : BitVec 40}
    (h : m.readRange 0 37 = storeBigEndian 32 key ++ storeLittleEndian 5 checksum) :
    loadBigEndian 256 (m.readRange 0 32) = key ∧ loadLittleEndian 40 (m.readRange 32 5) = checksum := by
  rw [Memory.readRange_add _ 0 32 5, Nat.zero_add] at h
  obtain ⟨hkey, hchecksum⟩ := List.append_inj h (by rw [Memory.readRange_length, storeBigEndian_length])
  rw [hkey, hchecksum]
  exact ⟨loadBigEndian_storeBigEndian (by decide) key, loadLittleEndian_storeLittleEndian (by decide) checksum⟩

/-- IBUF that holds an encoded address of the right length is accepted, with the digits it was made of. -/
theorem acceptedAddress_of_encoded {s : State} {key : BitVec 256} {checksum : BitVec 40} (hlen : s.ilen.toNat = 64)
    (h : s.ibuf.readRange 0 64 = encodeAddress key checksum) : AcceptedAddress s (addressDigits key checksum) := by
  rw [Memory.readRange_add _ 0 4 60, encodeAddress_eq, Nat.zero_add] at h
  obtain ⟨hprefix, hcharacters⟩ := List.append_inj h (by rw [Memory.readRange_length]; rfl)
  refine ⟨hlen, (prefixAccepted_iff s).mp ?_, hcharacters⟩
  rw [hprefix]
  decide

/-! Rounds of primitives -/

theorem toNat_position {i : Nat} (hi : i < 60) : (BitVec.ofNat 6 (4 + i)).toNat = 4 + i := by
  rw [BitVec.toNat_ofNat]
  exact Nat.mod_eq_of_lt (by omega)

/-- One round of 42_base32_account.md, section 4 (f). -/
def encodeRound (i : Nat) : List Instr := [.low5 .w256, .b32e (BitVec.ofNat 6 (4 + i)), .shr .w256 5#5]

/-- One round of 42_base32_account.md, section 5 (e). -/
def decodeRound (i : Nat) : List Instr := [.b32d (BitVec.ofNat 6 (4 + i)), .shl .w256 5#5, .orlr .w256]

/-- An encoding round writes the character of the lowest digit and shifts the digit out. -/
theorem execAll_encodeRound {i : Nat} (hi : i < 60) (s : State) :
    ∃ u, execAll (encodeRound i) s = .next u ∧ u.a256 = shiftRight s.a256 5#5
      ∧ ∀ k, u.obuf.read k = if k = 4 + i then alpha (lowestFive s.a256) else s.obuf.read k := by
  refine ⟨_, rfl, rfl, fun k => ?_⟩
  simp only [State.setErr_obuf, State.setAcc_obuf, State.setObuf_obuf, State.setR_obuf, State.setErr_r, State.setR_r,
    Memory.read_write, toNat_position hi, State.acc_w256]

/-- n rounds, from place n - 1 down to 0, write the n lowest digits. -/
theorem execAll_encodeRounds {n : Nat} (hn : n ≤ 60) (s : State) :
    ∃ u, execAll ((List.range n).reverse.flatMap encodeRound) s = .next u
      ∧ (∀ i, i < n → u.obuf.read (4 + i) = alpha (BitVec.ofNat 5 (s.a256.toNat / 32 ^ (n - 1 - i))))
      ∧ ∀ k, 4 + n ≤ k → u.obuf.read k = s.obuf.read k := by
  induction n generalizing s with
  | zero => exact ⟨s, rfl, fun i hi => absurd hi (Nat.not_lt_zero i), fun k _ => rfl⟩
  | succ n ih =>
    obtain ⟨t, ht, hacc, hround⟩ := execAll_encodeRound (i := n) (by omega) s
    obtain ⟨u, hu, hdigits, hkept⟩ := ih (by omega) t
    refine ⟨u, ?_, fun i hi => ?_, fun k hk => ?_⟩
    · rw [List.range_succ, List.reverse_append, List.reverse_singleton, List.singleton_append, List.flatMap_cons,
        execAll_append ht, hu]
    · rcases Nat.lt_succ_iff_lt_or_eq.mp hi with hlt | rfl
      · rw [hdigits i hlt, hacc, toNat_shiftRight, Nat.div_div_eq_div_mul, show 2 ^ (5#5 : Small).toNat = 32 from rfl,
          ← pow_succ', show n - 1 - i + 1 = n + 1 - 1 - i by omega]
      · rw [hkept _ le_rfl, hround, if_pos rfl, Nat.add_sub_cancel, Nat.sub_self, pow_zero, Nat.div_one]
        congr 1
        apply BitVec.eq_of_toNat_eq
        rw [toNat_lowestFive, BitVec.toNat_ofNat]
    · rw [hkept k (by omega), hround, if_neg (by omega)]

/-- A decoding round pushes the digit at its place. -/
theorem execAll_decodeRound {i : Nat} (hi : i < 60) {s : State} {d : Small} (hd : s.ibuf.read (4 + i) = alpha d) :
    ∃ u, execAll (decodeRound i) s = .next u ∧ u.a256 = pushDigit s.a256 d ∧ u.ibuf = s.ibuf := by
  have hinv : inv (s.ibuf.read (BitVec.ofNat 6 (4 + i)).toNat) = some d := by
    rw [toNat_position hi, hd, inv_alpha]
  exact ⟨_, execAll_cons ((exec_b32d_of_digit hinv).trans (complete_eq _)) _, rfl, rfl⟩

/-- n rounds accumulate the first n digits. -/
theorem execAll_decodeRounds {ds : List Small} {n : Nat} (hn : n ≤ 60) (hlen : n ≤ ds.length) {s : State}
    (hread : ∀ k, k < n → s.ibuf.read (4 + k) = alpha (ds.getD k 0#5)) :
    ∃ u, execAll ((List.range n).flatMap decodeRound) s = .next u
      ∧ u.a256 = (ds.take n).foldl pushDigit s.a256 ∧ u.ibuf = s.ibuf := by
  induction n with
  | zero => exact ⟨s, rfl, rfl, rfl⟩
  | succ n ih =>
    obtain ⟨t, ht, hacc, hibuf⟩ := ih (by omega) (by omega) fun k hk => hread k (by omega)
    have hdigit : t.ibuf.read (4 + n) = alpha ds[n] := by
      rw [hibuf, hread n (by omega), List.getD_eq_getElem]
    obtain ⟨u, hu, hacc', hibuf'⟩ := execAll_decodeRound (by omega) hdigit
    refine ⟨u, ?_, ?_, hibuf'.trans hibuf⟩
    · rw [List.range_succ, List.flatMap_append, execAll_append ht, List.flatMap_singleton, hu]
    · rw [List.take_succ_eq_append_getElem (by omega), List.foldl_append, ← hacc, hacc', List.foldl_cons,
        List.foldl_nil]

/-! The obligations -/

/-- Settles O46: the first key digit is bit 255 of the key alone, and every other character is some digit's. -/
theorem encodedAddressIsWellFormed : Obligations.EncodedAddressIsWellFormed := by
  intro s hlen
  obtain ⟨-, hencodes, -⟩ := accencWritesTheAddress s
  obtain ⟨t, ht, h0, h1, h2, h3, hkey, hchecksum, -, holen, -⟩ := hencodes hlen
  refine ⟨t, ht, by rw [holen]; rfl, ?lead, ?first, fun k h4 h63 => ?alphabet⟩
  case lead => rw [Memory.readRange_four, h0, h1, h2, h3]
  case first =>
    have hlt : (loadBigEndian 256 (s.ibuf.readRange 0 32)).toNat / 32 ^ 51 < 2 :=
      Nat.div_lt_of_lt_mul (lt_of_lt_of_eq (loadBigEndian 256 (s.ibuf.readRange 0 32)).isLt (by decide))
    have hread := hkey 0 (by decide)
    rw [← toNat_load_key] at hread
    rw [hread]
    obtain h | h := Nat.lt_succ_iff_lt_or_eq.mp hlt
    · rw [Nat.lt_one_iff.mp h]
      exact .inl rfl
    · rw [h]
      exact .inr rfl
  case alphabet =>
    by_cases hk : k < 56
    · exact ⟨_, (congrArg t.obuf.read (by omega : k = 4 + (k - 4))).trans (hkey (k - 4) (by omega))⟩
    · exact ⟨_, (congrArg t.obuf.read (by omega : k = 56 + (k - 56))).trans (hchecksum (k - 56) (by omega))⟩

/-- Settles O47: the rounds write the digits of the key that LDBE.256 loaded. -/
theorem accencKeyEqualsRoundsOfPrimitives : Obligations.AccencKeyEqualsRoundsOfPrimitives := by
  intro s hlen
  obtain ⟨-, hencodes, -⟩ := accencWritesTheAddress s
  obtain ⟨t, ht, -, -, -, -, hkey, -⟩ := hencodes hlen
  obtain ⟨l, hl, hacc, -⟩ := completes_of_setAcc (exec_ldbe_of_length (s := s.setIlen 32#8) (w := .w256) rfl)
  obtain ⟨u, hu, hdigits, -⟩ := execAll_encodeRounds (n := 52) (by decide) l
  refine ⟨t, u, ht, (execAll_cons hl _).trans hu, fun i hi => ?_⟩
  rw [State.acc_w256, State.setIlen_ibuf] at hacc
  rw [hkey i hi, hdigits i hi, hacc, ← toNat_load_key]

/-- Settles O49: the later characters are alphabet characters in both addresses or in neither, and the first digit's
lowest bit is all that reaches the key. -/
theorem redundantBitsAndPrefixDoNotMatter : Obligations.RedundantBitsAndPrefixDoNotMatter := by
  intro s₁ s₂ d₁ d₂ hlen₁ hlen₂ hprefix₁ hprefix₂ hd₁ hd₂ hparity hsame
  have hrest : s₁.ibuf.readRange 5 59 = s₂.ibuf.readRange 5 59 :=
    Memory.readRange_eq_iff.mpr fun k hk => hsame (5 + k) (by omega) (by omega)
  have hinv {s : State} {d : Small} (hd : inv (s.ibuf.read 4) = some d) :
      invAll (s.ibuf.readRange 4 60) = (invAll (s.ibuf.readRange 5 59)).map (d :: ·) := by
    rw [Memory.readRange_add _ 4 1 59, show s.ibuf.readRange 4 1 = [s.ibuf.read 4] from rfl, List.singleton_append,
      invAll, hd]
    cases invAll (s.ibuf.readRange 5 59) <;> rfl
  cases htail : invAll (s₂.ibuf.readRange 5 59) with
  | none =>
    have hbad₁ := exec_accdec_of_bad_character hlen₁ hprefix₁ (by rw [hinv hd₁, hrest, htail, Option.map_none])
    have hbad₂ := exec_accdec_of_bad_character hlen₂ hprefix₂ (by rw [hinv hd₂, htail, Option.map_none])
    exact ⟨_, _, hbad₁.trans (raise_eq _ _), hbad₂.trans (raise_eq _ _), by simp,
      fun herr => absurd herr (ErrorKind.code_ne_zero .invalidCharacter)⟩
  | some rest =>
    have hrestLen : rest.length = 59 := by rw [(invAll_getD htail).1, Memory.readRange_length]
    have hok₁ := exec_accdec_of_digits hlen₁ hprefix₁ (ds := d₁ :: rest)
      (by rw [hinv hd₁, hrest, htail, Option.map_some])
    have hok₂ := exec_accdec_of_digits hlen₂ hprefix₂ (ds := d₂ :: rest) (by rw [hinv hd₂, htail, Option.map_some])
    rw [decodeAddressDigits_congr hrestLen hparity] at hok₁
    obtain ⟨t₁, ht₁, hread₁, -, -, herr₁, -⟩ := completes_of_emit hok₁
    obtain ⟨t₂, ht₂, hread₂, -, -, herr₂, -⟩ := completes_of_emit hok₂
    rw [decodeAddressDigits_length] at hread₁ hread₂
    exact ⟨t₁, t₂, ht₁, ht₂, herr₁.trans herr₂.symm, fun _ k hk => (hread₁ k hk).trans (hread₂ k hk).symm⟩

/-- Settles O50: the rounds accumulate the first 52 digits, as ACCDEC does, and STBE.256 stores the result. -/
theorem accdecKeyEqualsRoundsOfPrimitives : Obligations.AccdecKeyEqualsRoundsOfPrimitives := by
  intro s t ht herr
  obtain ⟨ds, hds⟩ := exists_acceptedAddress ht herr
  have hlen := hds.digits_length
  have hzero : exec (.zero .w256) s = .next ((s.setAcc .w256 (BitVec.ofNat 256 0)).setErr 0#3) := complete_eq _
  obtain ⟨u, hu, hacc, -⟩ := execAll_decodeRounds (ds := ds) (n := 52) (by decide) (by omega)
    (s := (s.setAcc .w256 (BitVec.ofNat 256 0)).setErr 0#3) fun k hk => hds.read (by omega)
  have hkey : u.a256 = accumulateDigits 256 (ds.take 52) := hacc
  have hstore : exec (.stbe .w256) u = complete (u.emit (storeBigEndian 32 u.a256)) := rfl
  obtain ⟨v, hv, hread, -⟩ := completes_of_emit hstore
  have hrun : execAll ([.zero .w256] ++ (List.range 52).flatMap decodeRound ++ [.stbe .w256]) s = .next v := by
    rw [List.append_assoc, List.singleton_append, execAll_cons hzero, execAll_append hu, execAll_cons hv]
    rfl
  refine ⟨v, hrun, fun k hk => ?_⟩
  obtain ⟨t', ht', hread', -⟩ := completes_of_emit hds.exec_accdec
  obtain rfl : t' = t := Host.Outcome.next.inj (ht'.symm.trans ht)
  rw [hread k (by rwa [storeBigEndian_length]), hread' k (by rw [decodeAddressDigits_length]; omega), hkey,
    decodeAddressDigits, List.getD_append _ _ _ _ (by rwa [storeBigEndian_length])]

/-- Settles O51: the 64 bytes are accepted, with the digits they were made of, and those decode to the 37 bytes. -/
theorem decodingAnEncodedAddressGivesItBack : Obligations.DecodingAnEncodedAddressGivesItBack := by
  intro s hlen
  have hexec := exec_accenc_of_length hlen
  obtain ⟨t, ht, -, -, -, herr, -⟩ := completes_of_emit hexec
  have hencoded := readRange_of_exec_emit hexec ht (encodeAddress_length _ _)
  refine ⟨t, ht, herr, fun u hulen hu => ?_⟩
  have hpresented : u.ibuf.readRange 0 64 = t.obuf.readRange 0 64 :=
    Memory.readRange_eq_iff.mpr fun k hk => by rw [Nat.zero_add, hu k hk]
  have hdecodes := (acceptedAddress_of_encoded hulen (hpresented.trans hencoded)).exec_accdec
  obtain ⟨v, hv, -, -, holen, herr', -⟩ := completes_of_emit hdecodes
  have hdecoded := readRange_of_exec_emit hdecodes hv (decodeAddressDigits_length _)
  rw [decodeAddressDigits_addressDigits, ← Memory.readRange_key_checksum, Memory.readRange_eq_iff] at hdecoded
  rw [decodeAddressDigits_length] at holen
  exact ⟨v, hv, herr', by rw [holen]; rfl, fun k hk => by simpa only [Nat.zero_add] using hdecoded k hk⟩

/-- Settles O52: an encoded address begins with `xrb_` and a digit 0 or 1; conversely, from such a first digit on, the
digits of the decoded numbers are those of the address. -/
theorem reencodingReproducesCanonicalAddressesAlone : Obligations.ReencodingReproducesCanonicalAddressesAlone := by
  intro s t u ht herr hulen hu
  obtain ⟨ds, hds⟩ := exists_acceptedAddress ht herr
  have hdecoded := readRange_of_exec_emit hds.exec_accdec ht (decodeAddressDigits_length _)
  have hpresented : u.ibuf.readRange 0 37 = t.obuf.readRange 0 37 :=
    Memory.readRange_eq_iff.mpr fun k hk => by rw [Nat.zero_add, hu k hk]
  obtain ⟨hkey, hchecksum⟩ := load_of_readRange (hpresented.trans hdecoded)
  have hexec := exec_accenc_of_length hulen
  rw [hkey, hchecksum] at hexec
  obtain ⟨v, hv, -, hprefix, hfirst, -⟩ := encodedAddressIsWellFormed u hulen
  have hencoded := readRange_of_exec_emit hexec hv (encodeAddress_length _ _)
  refine ⟨v, hv, fun hsame => ?canonical, fun ⟨h3, h4⟩ => ?reproduced⟩
  case canonical =>
    rw [← hsame 3 (by decide), ← hsame 4 (by decide)]
    exact ⟨congrArg (·.getD 3 0#8) hprefix, hfirst⟩
  case reproduced =>
    obtain ⟨d, rest, rfl⟩ := List.exists_cons_of_length_pos (l := ds) (by rw [hds.digits_length]; decide)
    have hd : d.toNat < 2 := by
      have hread : s.ibuf.read 4 = alpha d := hds.read (k := 0) (by decide)
      rw [hread] at h4
      obtain h | h := h4
      · rw [alpha_injective (a₂ := 0#5) h]; decide
      · rw [alpha_injective (a₂ := 1#5) h]; decide
    obtain ⟨h0, h1, h2, -⟩ := hds.prefixed
    have hlead : s.ibuf.readRange 0 4 = addressPrefix := by
      rw [Memory.readRange_four, h0, h1, h2, h3]
      rfl
    have hrestLen : rest.length = 59 := Nat.succ.inj hds.digits_length
    rw [encodeAddress_eq, addressDigits_accumulateDigits hrestLen hd, ← hlead, ← hds.readRange_all,
      Memory.readRange_eq_iff] at hencoded
    exact fun k hk => by simpa only [Nat.zero_add] using hencoded k hk

/-- Settles O53: the last digit is the checksum integer modulo 32, whose other bytes are multiples of 256; the first is
what is left above bit 35, where only byte 4 reaches. -/
theorem checksumCharactersFollowLittleEndianOrder : Obligations.ChecksumCharactersFollowLittleEndianOrder := by
  intro s hlen
  obtain ⟨-, hencodes, -⟩ := accencWritesTheAddress s
  obtain ⟨t, ht, -, -, -, -, -, hchecksum, -⟩ := hencodes hlen
  have hsum : ∑ k ∈ Finset.range 5, (s.ibuf.read (32 + k)).toNat * 256 ^ k = (s.ibuf.read 32).toNat
      + 256 * ((s.ibuf.read 33).toNat + 256 * ((s.ibuf.read 34).toNat + 256 * ((s.ibuf.read 35).toNat
      + 256 * (s.ibuf.read 36).toNat))) := by
    simp only [Finset.sum_range_succ, Finset.sum_range_zero]
    ring
  have hlt (k : Nat) : (s.ibuf.read k).toNat < 256 := (s.ibuf.read k).isLt
  have h32 := hlt 32
  have h33 := hlt 33
  have h34 := hlt 34
  have h35 := hlt 35
  rw [hsum] at hchecksum
  refine ⟨t, ht, (hchecksum 7 (by decide)).trans (congrArg alpha (BitVec.eq_of_toNat_eq ?last)),
    (hchecksum 0 (by decide)).trans (congrArg alpha (BitVec.eq_of_toNat_eq ?first))⟩
  all_goals
    rw [BitVec.toNat_ofNat, BitVec.extractLsb'_toNat, Nat.shiftRight_eq_div_pow]
    omega

end Sys2Proof.Machine
end
